-- ==== Sys2Proof/Word.lean ====
section
/-! DEFINITION. The word types of the block: unsigned values of the widths the source's types name (00_scope.md R8).
A boolean is a `Bool`; a byte string is a `List Byte`, first byte first (R9). -/

namespace Sys2Proof

/-- `u8`: a byte, bit 7 the most significant (00_scope.md R7). -/
abbrev Byte := BitVec 8
/-- `u6`. -/
abbrev U6 := BitVec 6
/-- `u12`. -/
abbrev U12 := BitVec 12
/-- `u16`. -/
abbrev U16 := BitVec 16
/-- `u32`. -/
abbrev U32 := BitVec 32
/-- `u33`: the width of `ptsAdjustment`, `pts` and `duration` (30_encoding.md R62). -/
abbrev U33 := BitVec 33

end Sys2Proof
end

