-- ==== Sys2Proof/Machine/Crc.lean ====
section
/-! DEFINITION. The CRC-32 of the trailer (41_crc_and_views.md R111), bit at a time, most significant bit first, nothing
reflected. -/

namespace Sys2Proof.Machine

/-- 41_crc_and_views.md R111: one iteration, shift left by one and XOR with the polynomial if the top bit was set. -/
def crcShift (acc : U32) : U32 := if acc.getLsbD 31 then (acc <<< 1) ^^^ 0x04C11DB7 else acc <<< 1

/-- `n` iterations. -/
def crcShifts : Nat → U32 → U32
  | 0,     acc => acc
  | n + 1, acc => crcShifts n (crcShift acc)

/-- 41_crc_and_views.md R111: one input byte, into the top 8 bits, then 8 iterations. -/
def crcByte (acc : U32) (b : Byte) : U32 := crcShifts 8 (acc ^^^ (b.setWidth 32 <<< 24))

/-- The accumulator after a byte string. -/
def crcBytes : U32 → List Byte → U32
  | acc, []     => acc
  | acc, b :: t => crcBytes (crcByte acc b) t

/-- 41_crc_and_views.md R111. -/
def crc32 (s : List Byte) : U32 := crcBytes 0xFFFFFFFF s ^^^ 0xFFFFFFFF

end Sys2Proof.Machine
end

