-- ==== Sys2Proof/Config.lean ====
section
/-! DEFINITION. The implementation parameters ("straps") of 00_scope.md R6. They are arguments of the model: `State` carries
one `Params`, no step writes it (70_reset_and_hazards.md R172), so a statement over all states holds for every setting
(log 1). The fourth parameter of R6, the arbitration order, is the order of `State.events` (log 2). -/

namespace Sys2Proof

/-- 00_scope.md R6: `SEQ_SEED`, `LEGACY_OVF`, `OBUF_SIZE`. -/
structure Params where
  seqSeed   : U32
  legacyOvf : Bool
  obufSize  : Nat
  deriving DecidableEq, Repr

/-- The value each parameter takes by default (00_scope.md R6). -/
def Params.standard : Params where
  seqSeed   := 100023
  legacyOvf := false
  obufSize  := 4098

end Sys2Proof
end

