-- ==== Sys2Proof/Syntax/Records.lean ====
section
/-! DEFINITION. The operand records (10_state.md R14 to R19), field for field with the spec's names and widths. Every width is
exact, so an out-of-range field cannot be presented (R29). -/

namespace Sys2Proof

/-- 10_state.md R14: the section fields of ENC.SI and ENC.TS. -/
structure SectionFields where
  tableId                : Byte
  sectionSyntaxIndicator : Bool
  privateIndicator       : Bool
  protocolVersion        : Byte
  encryptedPacket        : Bool
  encryptedAlgorithm     : U6
  ptsAdjustment          : U33
  cwIndex                : Byte
  tier                   : U12
  spliceCommandType      : Byte
  deriving DecidableEq, Repr

/-- The four wires of 10_state.md R15's two sub-structures: here the splice time. -/
structure SpliceTime where
  specified : Bool
  pts       : U33
  deriving DecidableEq, Repr

/-- 10_state.md R15: the break duration. -/
structure BreakDuration where
  autoReturn : Bool
  duration   : U33
  deriving DecidableEq, Repr

/-- 10_state.md R15: the command fields of ENC.SI. The wires of both sub-structures always exist; a sub-structure is present
exactly when its flag condition holds (92_eei_decisions.md D4). -/
structure SpliceInsert where
  spliceEventId              : U32
  spliceEventCancelIndicator : Bool
  outOfNetworkIndicator      : Bool
  programSpliceFlag          : Bool
  durationFlag               : Bool
  spliceImmediateFlag        : Bool
  spliceTime                 : SpliceTime
  breakDuration              : BreakDuration
  uniqueProgramId            : U16
  available                  : Byte
  expected                   : Byte
  deriving DecidableEq, Repr

/-- 10_state.md R16: the command fields of ENC.TS. -/
structure TimeSignal where
  specified : Bool
  pts       : U33
  deriving DecidableEq, Repr

/-- 10_state.md R17: the form of a descriptor's data. -/
inductive DescForm where
  | bytes
  | hex
  deriving DecidableEq, Repr

/-- 10_state.md R17: a descriptor operand; with `hex` its `data` are 8-bit character codes. -/
structure Descriptor where
  tag  : Byte
  form : DescForm
  data : List Byte
  deriving DecidableEq, Repr

/-- A descriptor whose data have been decoded to bytes (40_section_encoder.md R87, R95: the `d[k]`). -/
structure RawDescriptor where
  tag  : Byte
  data : List Byte
  deriving DecidableEq, Repr

/-- 10_state.md R18: the operand record of the three GEN operations. -/
structure CueCommand where
  eventIdValid    : Bool
  eventId         : U32
  adDurationValid : Bool
  adDuration      : U32
  preRollValid    : Bool
  preRollDuration : Byte
  deriving DecidableEq, Repr

/-- The splice command a section carries: the source's tagged union (40_section_encoder.md R87, R102). The tag comes from the
opcode, never from `spliceCommandType`. -/
inductive SpliceCommand where
  | insert (c : SpliceInsert)
  | time   (c : TimeSignal)
  deriving DecidableEq, Repr

def SectionFields.zero : SectionFields := ⟨0, false, false, 0, false, 0, 0, 0, 0, 0⟩
def SpliceInsert.zero : SpliceInsert := ⟨0, false, false, false, false, false, ⟨false, 0⟩, ⟨false, 0⟩, 0, 0, 0⟩
def TimeSignal.zero : TimeSignal := ⟨false, 0⟩
def CueCommand.zero : CueCommand := ⟨false, 0, false, 0, false, 0⟩

/-- The operand ports: every record's wires, presented in parallel beside the opcode byte (30_encoding.md R52); the opcode
selects the record that is read (log 3). -/
structure Operands where
  sect   : SectionFields
  insert     : SpliceInsert
  time       : TimeSignal
  descriptors : List Descriptor
  cue        : CueCommand
  seed       : U32
  deriving DecidableEq, Repr

/-- All operand wires 0 and no descriptor. -/
def Operands.zero : Operands := ⟨.zero, .zero, .zero, [], .zero, 0⟩

/-- 30_encoding.md R52, format `CMD8`: an opcode byte and the operand ports. -/
structure Command where
  op       : Byte
  operands : Operands
  deriving DecidableEq, Repr

end Sys2Proof
end

