-- ==== Sys2Proof/Syntax.lean ====
section
/-! DEFINITION. The seven operations of the block (30_encoding.md R52), one constructor per row of spec/opcode_table.json, each
with the operand record its opcode calls for. -/

namespace Sys2Proof

inductive Instr where
  /-- ENC.SI, 40_section_encoder.md R95. -/
  | encSi (sec : SectionFields) (cmd : SpliceInsert) (ds : List Descriptor)
  /-- ENC.TS, 40_section_encoder.md R97. -/
  | encTs (sec : SectionFields) (cmd : TimeSignal) (ds : List Descriptor)
  /-- GEN.OUT, 42_cue_generator.md R126. -/
  | genOut (cue : CueCommand)
  /-- GEN.IN, 42_cue_generator.md R127. -/
  | genIn (cue : CueCommand)
  /-- GEN.CRASH, 42_cue_generator.md R128. -/
  | genCrash (cue : CueCommand)
  /-- SEQ.NEXT, 43_event_id_sequence.md R141. -/
  | seqNext
  /-- SEQ.RESET, 43_event_id_sequence.md R144. -/
  | seqReset (seed : U32)
  deriving DecidableEq, Repr

end Sys2Proof
end

