-- ==== Sys2Proof/Decode.lean ====
section
/-! DEFINITION. The command encoding `CMD8` (30_encoding.md R52, R53): the decoder, total on every opcode byte and rejecting by
name, then the encoder. The operand record is not serialised (R52): decoding selects, by the opcode, which operand ports are
read (log 3). -/

namespace Sys2Proof

/-- Why a command selects no operation: its opcode byte is not in the table (30_encoding.md R53). -/
inductive DecodeReject where
  | unlistedOpcode (op : Byte)
  deriving DecidableEq, Repr

/-! The opcode map of 30_encoding.md R52. -/

def opEncSi    : Byte := 0x15
def opEncTs    : Byte := 0x16
def opGenOut   : Byte := 0x21
def opGenIn    : Byte := 0x22
def opGenCrash : Byte := 0x23
def opSeqNext  : Byte := 0x31
def opSeqReset : Byte := 0x32

/-- The seven listed opcodes. -/
def listedOpcodes : List Byte := [opEncSi, opEncTs, opGenOut, opGenIn, opGenCrash, opSeqNext, opSeqReset]

/-- 30_encoding.md R52, R53. -/
def decode (c : Command) : Except DecodeReject Instr :=
  if c.op = opEncSi then .ok (.encSi c.operands.sect c.operands.insert c.operands.descriptors)
  else if c.op = opEncTs then .ok (.encTs c.operands.sect c.operands.time c.operands.descriptors)
  else if c.op = opGenOut then .ok (.genOut c.operands.cue)
  else if c.op = opGenIn then .ok (.genIn c.operands.cue)
  else if c.op = opGenCrash then .ok (.genCrash c.operands.cue)
  else if c.op = opSeqNext then .ok .seqNext
  else if c.op = opSeqReset then .ok (.seqReset c.operands.seed)
  else .error (.unlistedOpcode c.op)

/-- The opcode byte of an instruction (30_encoding.md R52). -/
def opcodeOf : Instr → Byte
  | .encSi _ _ _ => opEncSi
  | .encTs _ _ _ => opEncTs
  | .genOut _    => opGenOut
  | .genIn _     => opGenIn
  | .genCrash _  => opGenCrash
  | .seqNext     => opSeqNext
  | .seqReset _  => opSeqReset

/-- The operand ports an instruction is presented with: its own record, every other wire 0 (DESIGN CHOICE, safe: no operation
reads a port outside its record; log 3). -/
def operandsOf : Instr → Operands
  | .encSi sec cmd ds => { Operands.zero with sect := sec, insert := cmd, descriptors := ds }
  | .encTs sec cmd ds => { Operands.zero with sect := sec, time := cmd, descriptors := ds }
  | .genOut cue       => { Operands.zero with cue := cue }
  | .genIn cue        => { Operands.zero with cue := cue }
  | .genCrash cue     => { Operands.zero with cue := cue }
  | .seqNext          => Operands.zero
  | .seqReset seed    => { Operands.zero with seed := seed }

/-- The command that presents an instruction. -/
def encode (i : Instr) : Command := ⟨opcodeOf i, operandsOf i⟩

/-- The command a table word stands for: the opcode byte is the word's low byte and every operand wire is 0, since the table
gives the operand record no bits (30_encoding.md R52; log 5). -/
def commandOfTableWord (nbits w : Nat) : Command := ⟨BitVec.ofNat 8 (w % 2 ^ nbits), .zero⟩

/-- The instruction the decoder reads from a table word. -/
def decodeTableWord (nbits w : Nat) : Option Instr :=
  match decode (commandOfTableWord nbits w) with
  | .ok i    => some i
  | .error _ => none

end Sys2Proof
end

