-- ==== Sys2Proof/Syntax/Calls.lean ====
section
/-! DEFINITION. The source's call shapes (30_encoding.md R75), as a software wrapper in front of the command port holds them
(10_state.md R29): numbers are unbounded integers, optional parts are options, the cue type is a string of 8-bit character
codes. `Machine/Calls.lean` expands them to commands. -/

namespace Sys2Proof

structure SourceSpliceTime where
  specified : Bool
  pts       : Int
  deriving DecidableEq, Repr

structure SourceBreakDuration where
  autoReturn : Bool
  duration   : Int
  deriving DecidableEq, Repr

/-- The source's `SpliceInsert` (10_state.md R15), with the two sub-structures optional as the source writes them. -/
structure SourceSpliceInsert where
  spliceEventId              : Int
  spliceEventCancelIndicator : Bool
  outOfNetworkIndicator      : Bool
  programSpliceFlag          : Bool
  durationFlag               : Bool
  spliceImmediateFlag        : Bool
  spliceTime                 : Option SourceSpliceTime
  breakDuration              : Option SourceBreakDuration
  uniqueProgramId            : Int
  available                  : Int
  expected                   : Int
  deriving DecidableEq, Repr

/-- The source's tagged union `spliceCommand` (10_state.md R14). -/
inductive SourceSpliceCommand where
  | spliceInsert (c : SourceSpliceInsert)
  | timeSignal   (specified : Bool) (pts : Int)
  deriving DecidableEq, Repr

/-- The source's `Descriptor` (10_state.md R17): an integer tag, and data in either form. -/
structure SourceDescriptor where
  tag  : Int
  form : DescForm
  data : List Byte
  deriving DecidableEq, Repr

/-- The source's `SpliceInfoSection` (10_state.md R14). -/
structure SourceSection where
  tableId                : Int
  sectionSyntaxIndicator : Bool
  privateIndicator       : Bool
  protocolVersion        : Int
  encryptedPacket        : Bool
  encryptedAlgorithm     : Int
  ptsAdjustment          : Int
  cwIndex                : Int
  tier                   : Int
  spliceCommandType      : Int
  spliceCommand          : SourceSpliceCommand
  descriptors            : List SourceDescriptor
  deriving DecidableEq, Repr

/-- The four calls of 30_encoding.md R75. -/
inductive SourceCall where
  | encodeSection (sect : SourceSection)
  | generateCue (cueType : List Byte) (eventId adDuration preRollDuration : Option Int)
  | next
  | reset (seed : Int)
  deriving DecidableEq, Repr

end Sys2Proof
end

