-- ==== Sys2Proof/WellFormed.lean ====
section
/-! DEFINITION. What is well formed. An `Instr` needs no check: every field has its exact width and presence is the flag
condition, so "every operand record that can be presented is well formed" (40_section_encoder.md R86, 10_state.md R15, R29).
The checks that can fail are on the straps (00_scope.md R6) and on the wrapper's calls, whose integers and options are wider
than the ports (93_implementation_defined.md U2, U11). -/

namespace Sys2Proof

/-- 00_scope.md R6: `OBUF_SIZE` is at least 43. -/
def Params.wellFormed (p : Params) : Bool := decide (43 ≤ p.obufSize)

/-- 93_implementation_defined.md U2: a number of the wrapper is not negative. -/
def nonNeg (n : Int) : Bool := decide (0 ≤ n)

/-- U2 for an optional number. -/
def nonNegOpt : Option Int → Bool
  | none   => true
  | some n => nonNeg n

/-- U2 over a splice insert's numbers. -/
def SourceSpliceInsert.nonNegative (c : SourceSpliceInsert) : Bool :=
  nonNeg c.spliceEventId && nonNegOpt (c.spliceTime.map (·.pts)) && nonNegOpt (c.breakDuration.map (·.duration)) &&
    nonNeg c.uniqueProgramId && nonNeg c.available && nonNeg c.expected

/-- U2 over a section's numbers. -/
def SourceSection.nonNegative (s : SourceSection) : Bool :=
  nonNeg s.tableId && nonNeg s.protocolVersion && nonNeg s.encryptedAlgorithm && nonNeg s.ptsAdjustment && nonNeg s.cwIndex &&
    nonNeg s.tier && nonNeg s.spliceCommandType && s.descriptors.all (fun d => nonNeg d.tag) &&
    match s.spliceCommand with
    | .spliceInsert c   => c.nonNegative
    | .timeSignal _ pts => nonNeg pts

/-- 10_state.md R15, 93_implementation_defined.md U11: "`breakDuration` is present iff `durationFlag` is true; `spliceTime` is
present iff `programSpliceFlag && !spliceImmediateFlag`". A cancelled record is consistent whatever its other fields are, since
none of them is read (40_section_encoder.md R100; DEDUCED, log 13). -/
def SourceSpliceInsert.consistent (c : SourceSpliceInsert) : Bool :=
  c.spliceEventCancelIndicator ||
    (c.breakDuration.isSome == c.durationFlag && c.spliceTime.isSome == (c.programSpliceFlag && !c.spliceImmediateFlag))

/-- The consistency of a section's command: a time signal has no optional part. -/
def SourceSection.consistent (s : SourceSection) : Bool :=
  match s.spliceCommand with
  | .spliceInsert c => c.consistent
  | .timeSignal _ _ => true

/-- U2 over a whole call. -/
def SourceCall.nonNegative : SourceCall → Bool
  | .encodeSection sect                     => sect.nonNegative
  | .generateCue _ eventId adDuration preRoll => nonNegOpt eventId && nonNegOpt adDuration && nonNegOpt preRoll
  | .next                                   => true
  | .reset seed                             => nonNeg seed

/-- U11 over a whole call. -/
def SourceCall.consistent : SourceCall → Bool
  | .encodeSection sect    => sect.consistent
  | .generateCue _ _ _ _ => true
  | .next                  => true
  | .reset _               => true

end Sys2Proof
end

