-- ==== Sys2Proof/Machine/State.lean ====
section
/-! DEFINITION. The state of the block as plain data (10_state.md R13, R20 to R27; 20_memory.md R31, R32), the reasons a step can
stop, and the state after reset. -/

namespace Sys2Proof.Machine

/-- The bytes of the working buffer by offset (20_memory.md R31), in one canonical form: see `Memory.wf`. An offset that is not
listed holds no byte. -/
abbrev Memory := List Host.Cell

/-- 10_state.md R26, 20_memory.md R31, R32: the working buffer and its write pointer. -/
structure Buffer where
  mem : Memory
  wp  : Nat
  deriving DecidableEq, Repr

/-- 20_memory.md R31: the buffer as it is created, and as it is between operations (10_state.md R27). -/
def Buffer.empty : Buffer := ⟨[], 0⟩

/-- 42_cue_generator.md R129: the opcode and the operand record of a GEN operation, exactly as presented. -/
structure Echo where
  op     : Byte
  record : CueCommand
  deriving DecidableEq, Repr

/-- 10_state.md R22: the response latch `RSP`. A field the most recent operation did not define has no value: `none` (log 8). -/
structure Response where
  err    : BitVec 2
  olen   : Nat
  obuf   : Option (List Byte)
  evid   : Option U32
  tstamp : Option U32
  echo   : Option Echo
  deriving DecidableEq, Repr

/-- 10_state.md R27: the response latch after reset. -/
def Response.reset : Response := ⟨0, 0, none, none, none, none⟩

/-- What the outside presents to the block: a command with the wall-clock reading `now_s` that goes with it (10_state.md R13,
R25; 70_reset_and_hazards.md R181), or a reset between operations (R171). -/
inductive Event where
  | command (c : Command) (nowS : U32)
  | reset
  deriving DecidableEq, Repr

/-- 10_state.md R13: `SEQ` and `RSP`; the working buffer (R26); the straps (R24, R30); and, the model's own, the input side:
`events`, what the outside will present, in the order the block takes it (20_memory.md R43, log 2), and `nowS`, the clock reading
sampled with the command being performed (R25, log 4). -/
structure State where
  seq    : U32
  rsp    : Response
  buf    : Buffer
  params : Params
  events : List Event
  nowS   : U32
  deriving DecidableEq, Repr

/-- The two architected errors (60_exceptions.md R152). They are no stop: an operation that raises one answers a next state. -/
inductive ErrorKind where
  | unsupportedCommand
  | malformedDescriptorData
  deriving DecidableEq, Repr

/-- Why a read of the block stops with a fault. -/
inductive Fault where
  /-- Raised by the host-side read functions of Machine/HostPort.lean alone, for a response field that has no value
  (10_state.md R22: "treat a read of it as a fault of the host, not as zero"). No operation and no step raises it. Safe. -/
  | responseFieldHasNoValue
  deriving DecidableEq, Repr

/-- Why the model gives a command no meaning. -/
inductive Refusal where
  /-- Raised by an arm of `exec` that has no meaning yet. Safe. No arm raises it now. -/
  | notModelled (mnemonic : String)
  /-- Raised by ENC.SI and ENC.TS for a section longer than `OBUF_SIZE` (20_memory.md R41, 60_exceptions.md R168: the command "has
  no meaning in this spec"). Safe. -/
  | sectionExceedsBuffer
  deriving DecidableEq, Repr

/-- 10_state.md R27, 70_reset_and_hazards.md R172, under given straps: nothing presented, and the clock port at 0 (log 4, log 5). -/
def State.resetWith (p : Params) : State where
  seq    := p.seqSeed
  rsp    := Response.reset
  buf    := Buffer.empty
  params := p
  events := []
  nowS   := 0

/-- 10_state.md R27 with every strap at its default (00_scope.md R6). -/
def State.reset : State := State.resetWith Params.standard

end Sys2Proof.Machine
end

