-- ==== Sys2Proof/Machine/Flags.lean ====
section
/-! DEFINITION. The block has no condition codes (10_state.md R23); its only status is the error code `RSP.ERR`
(60_exceptions.md R152). -/

namespace Sys2Proof.Machine

/-- 60_exceptions.md R152: code 0, the operation succeeded. -/
def errNone : BitVec 2 := 0

/-- 60_exceptions.md R152: codes 1 and 2. Code 3 is never produced (R155). -/
def errorCode : ErrorKind → BitVec 2
  | .unsupportedCommand      => 1
  | .malformedDescriptorData => 2

end Sys2Proof.Machine
end

