-- ==== Sys2Proof/Machine/Ops.lean ====
section
/-! DEFINITION. The named operations over the working buffer (20_memory.md R33 to R35), the sequencer, the response latch, raising
an error, and reset. -/

namespace Sys2Proof.Machine

/-! ## Memory -/

/-- The canonical form: offsets strictly rising. No listed entry can equal what an unlisted offset reads as, since an unlisted
offset holds no byte. -/
def Memory.wf : Memory → Bool
  | []          => true
  | [_]         => true
  | x :: y :: t => decide (x.1 < y.1) && Memory.wf (y :: t)

/-- The byte at an offset; `none` where nothing has been written (20_memory.md R48). -/
def Memory.read : Memory → Nat → Option Byte
  | [],     _ => none
  | x :: t, a => if x.1 = a then some x.2 else Memory.read t a

/-- Write one byte, keeping the canonical form. -/
def Memory.write : Memory → Nat → Byte → Memory
  | [],     a, b => [(a, b)]
  | x :: t, a, b =>
    if a < x.1 then (a, b) :: x :: t
    else if a = x.1 then (a, b) :: t
    else x :: Memory.write t a b

/-- Write a byte string at consecutive offsets from `a`. -/
def Memory.writeBytes : Memory → Nat → List Byte → Memory
  | m, _, []     => m
  | m, a, b :: t => Memory.writeBytes (m.write a b) (a + 1) t

/-- Read `n` consecutive bytes from `a`; `none` if any of them has not been written. -/
def Memory.readBytes (m : Memory) : Nat → Nat → Option (List Byte)
  | _, 0     => some []
  | a, n + 1 =>
    match m.read a, Memory.readBytes m (a + 1) n with
    | some b, some t => some (b :: t)
    | _,      _      => none

/-- 00_scope.md R9, 20_memory.md R36: the `n`-byte big-endian image of `v`, the most significant byte first. -/
def beBytes : Nat → Nat → List Byte
  | 0,     _ => []
  | n + 1, v => BitVec.ofNat 8 (v >>> (8 * n)) :: beBytes n v

/-- 00_scope.md R9: the value whose big-endian image is a byte string. -/
def beValue : List Byte → Nat
  | []     => 0
  | b :: t => b.toNat * 256 ^ t.length + beValue t

/-! ## The working buffer -/

/-- 40_section_encoder.md R87, `wp <- 0`: the working buffer as an operation creates it, empty whatever it held
(20_memory.md R31, R48). -/
def Buffer.clear (_ : Buffer) : Buffer := Buffer.empty

/-- 20_memory.md R33: `Append(v, n)`. -/
def Buffer.append (n v : Nat) (b : Buffer) : Buffer :=
  { mem := b.mem.writeBytes b.wp (beBytes n v), wp := b.wp + n }

/-- 00_scope.md R10: `AppendBytes(s)`, one `Append(b, 1)` for each byte. -/
def Buffer.appendBytes : List Byte → Buffer → Buffer
  | [],     b => b
  | x :: t, b => Buffer.appendBytes t (b.append 1 x.toNat)

/-- 20_memory.md R34: `MemWrite(addr, n, v)`; `wp` does not change. The rule's premise `addr + n <= wp` is met at its one use,
the back-patch. -/
def Buffer.memWrite (addr n v : Nat) (b : Buffer) : Buffer :=
  { b with mem := b.mem.writeBytes addr (beBytes n v) }

/-- 20_memory.md R35: `MemRead(addr, n)`; `none` where the rule's premise fails. -/
def Buffer.memRead (addr n : Nat) (b : Buffer) : Option Nat := (b.mem.readBytes addr n).map beValue

/-- `buffer[0 .. wp-1]`: the bytes in offset order. -/
def Buffer.contents (b : Buffer) : List Byte := b.mem.map (·.2)

/-! ## The response latch and the end of an operation -/

/-- 00_scope.md R10, `respond(...)`: the response latch takes the operation's response (10_state.md R22, R23). -/
def State.respond (r : Response) (s : State) : State := { s with rsp := r }

/-- 20_memory.md R31, R48: the working buffer does not outlive the operation. -/
def State.dropBuffer (s : State) : State := { s with buf := Buffer.empty }

/-- 60_exceptions.md R151: `raise E`. The error code, no bytes, every other response field without a value, the working buffer
dropped; nothing else changes. -/
def State.raiseError (e : ErrorKind) (s : State) : State :=
  (s.respond ⟨errorCode e, 0, none, none, none, none⟩).dropBuffer

/-! ## The sequencer -/

/-- 43_event_id_sequence.md R141, R142, R143: read `SEQ` and increment it, modulo 2^32, as one indivisible step. -/
def State.drawId (s : State) : U32 × State := (s.seq, { s with seq := s.seq + 1 })

/-- 42_cue_generator.md R122: `ResolveEventId(op)`. -/
def State.resolveEventId (op : CueCommand) (s : State) : U32 × State :=
  if op.eventIdValid then (op.eventId, s) else s.drawId

/-! ## Reset -/

/-- 70_reset_and_hazards.md R171, R172: a reset between operations. The straps are not changed; what the outside has yet to
present and the clock port are not the block's (log 7). -/
def State.powerUp (s : State) : State :=
  { s with seq := s.params.seqSeed, rsp := Response.reset, buf := Buffer.empty }

end Sys2Proof.Machine
end

