-- ==== Sys2Proof/Machine/Operands.lean ====
section
/-! DEFINITION. How each kind of operand becomes bytes (30_encoding.md R62, R73 and the byte layouts of R56 to R68), and the
decoding of descriptor data (40_section_encoder.md R92). -/

namespace Sys2Proof.Machine

/-- 00_scope.md R8: a boolean as a byte, 1 when true. -/
def boolByte (b : Bool) : Byte := if b then 1 else 0

/-- 30_encoding.md R62: the overflow bit of a 33-bit value. -/
def ovf (p : Params) (v : U33) : Bool := if p.legacyOvf then false else v.getLsbD 32

/-- `v[31:0]` of a 33-bit value (30_encoding.md R73 (c)). -/
def low32 (v : U33) : U32 := v.setWidth 32

/-! ## The packed bytes of the header -/

/-- 30_encoding.md R56, offset 1. -/
def flagsByte (s : SectionFields) : Byte :=
  (boolByte s.sectionSyntaxIndicator <<< 7) ||| (boolByte s.privateIndicator <<< 6) ||| 0x30

/-- 30_encoding.md R58, offset 5. -/
def encryptionByte (p : Params) (s : SectionFields) : Byte :=
  (boolByte s.encryptedPacket <<< 7) ||| (s.encryptedAlgorithm.setWidth 8 <<< 1) ||| boolByte (ovf p s.ptsAdjustment)

/-- 30_encoding.md R60, offsets 11 and 12. -/
def tierWord (s : SectionFields) : U16 := (s.tier.setWidth 16 <<< 4) ||| 0x000F

/-! ## The packed bytes of the command body -/

/-- 30_encoding.md R66: the cancel byte. -/
def cancelByte (c : SpliceInsert) : Byte := boolByte c.spliceEventCancelIndicator <<< 7

/-- 30_encoding.md R66: the splice insert's flags byte. -/
def insertFlagsByte (c : SpliceInsert) : Byte :=
  (boolByte c.outOfNetworkIndicator <<< 7) ||| (boolByte c.programSpliceFlag <<< 6) |||
    (boolByte c.durationFlag <<< 5) ||| (boolByte c.spliceImmediateFlag <<< 4)

/-- 30_encoding.md R65: byte 0 of the break duration. -/
def breakByte (p : Params) (autoReturn : Bool) (duration : U33) : Byte :=
  (boolByte autoReturn <<< 7) ||| boolByte (ovf p duration)

/-- 10_state.md R15: the condition under which the splice time of a splice insert that is not cancelled is present. -/
def spliceTimePresent (c : SpliceInsert) : Bool := c.programSpliceFlag && !c.spliceImmediateFlag

/-! ## The computed lengths (30_encoding.md R73 (f)) -/

/-- 30_encoding.md R57, R61: a 12-bit length under four reserved 1 bits. -/
def reservedLength (n : Nat) : Nat := 0xF000 ||| (n % 2 ^ 12)

/-- 40_section_encoder.md R98: the byte count of a splice time. -/
def spliceTimeLength (specified : Bool) : Nat := if specified then 6 else 1

/-- 40_section_encoder.md R96, `BodyLengthSI`. -/
def bodyLengthSI (c : SpliceInsert) : Nat :=
  if c.spliceEventCancelIndicator then 5
  else 10 + (if spliceTimePresent c then spliceTimeLength c.spliceTime.specified else 0) + (if c.durationFlag then 5 else 0)

/-- The byte count of a command body (40_section_encoder.md R96, R98). -/
def bodyLength : SpliceCommand → Nat
  | .insert c => bodyLengthSI c
  | .time c   => spliceTimeLength c.specified

/-- 40_section_encoder.md R95, `DescLength(d)`. -/
def descLength : List RawDescriptor → Nat
  | []     => 0
  | d :: t => 2 + d.data.length + descLength t

/-! ## Descriptor data -/

/-- 40_section_encoder.md R92, `hexval`. -/
def hexval (c : Byte) : Option Nat :=
  if 0x30 ≤ c.toNat ∧ c.toNat ≤ 0x39 then some (c.toNat - 0x30)
  else if 0x41 ≤ c.toNat ∧ c.toNat ≤ 0x46 then some (c.toNat - 0x41 + 10)
  else if 0x61 ≤ c.toNat ∧ c.toNat ≤ 0x66 then some (c.toNat - 0x61 + 10)
  else none

/-- 40_section_encoder.md R92, `HexDecode`; `none` is `raise MalformedDescriptorData`. -/
def hexDecode : List Byte → Option (List Byte)
  | []          => some []
  | [_]         => none
  | h :: l :: t =>
    match hexval h, hexval l, hexDecode t with
    | some hi, some lo, some out => some (BitVec.ofNat 8 (16 * hi + lo) :: out)
    | _,       _,       _        => none

/-- 40_section_encoder.md R95: one descriptor with its data as bytes. -/
def decodeDescriptor (d : Descriptor) : Option RawDescriptor :=
  match d.form with
  | .bytes => some ⟨d.tag, d.data⟩
  | .hex   => (hexDecode d.data).map (RawDescriptor.mk d.tag)

/-- 40_section_encoder.md R95, 60_exceptions.md R157: every descriptor decoded, in order, before any byte is produced; `none` if
one is malformed. -/
def decodeDescriptors : List Descriptor → Option (List RawDescriptor)
  | []     => some []
  | d :: t =>
    match decodeDescriptor d with
    | none   => none
    | some r => (decodeDescriptors t).map (r :: ·)

end Sys2Proof.Machine
end

