-- ==== Sys2Proof/Machine/Encoder.lean ====
section
/-! DEFINITION. The section encoder and its two operations ENC.SI and ENC.TS (40_section_encoder.md R86 to R103). -/

namespace Sys2Proof.Machine

/-- 40_section_encoder.md R88, `WriteHeader(s)`: eleven appends, with placeholders where the three lengths go. -/
def writeHeader (p : Params) (s : SectionFields) (b : Buffer) : Buffer :=
  let b := b.append 1 s.tableId.toNat
  let b := b.append 1 (flagsByte s).toNat
  let b := b.append 2 0x0000
  let b := b.append 1 s.protocolVersion.toNat
  let b := b.append 1 (encryptionByte p s).toNat
  let b := b.append 4 (low32 s.ptsAdjustment).toNat
  let b := b.append 1 s.cwIndex.toNat
  let b := b.append 2 (tierWord s).toNat
  let b := b.append 2 0xF000
  let b := b.append 1 s.spliceCommandType.toNat
  b.append 2 0x0000

/-- 40_section_encoder.md R89, `EncodeSpliceTime(specified, pts)`. -/
def encodeSpliceTime (p : Params) (specified : Bool) (pts : U33) (b : Buffer) : Buffer :=
  let b := b.append 1 (boolByte specified <<< 7).toNat
  if specified then (b.append 1 (boolByte (ovf p pts)).toNat).append 4 (low32 pts).toNat else b

/-- 40_section_encoder.md R90, `EncodeBreakDuration(autoReturn, duration)`. -/
def encodeBreakDuration (p : Params) (autoReturn : Bool) (duration : U33) (b : Buffer) : Buffer :=
  (b.append 1 (breakByte p autoReturn duration).toNat).append 4 (low32 duration).toNat

/-- 40_section_encoder.md R96, `EncodeSpliceInsert(c)`. -/
def encodeSpliceInsert (p : Params) (c : SpliceInsert) (b : Buffer) : Buffer :=
  let b := b.append 4 c.spliceEventId.toNat
  let b := b.append 1 (cancelByte c).toNat
  if c.spliceEventCancelIndicator then b
  else
    let b := b.append 1 (insertFlagsByte c).toNat
    let b := if spliceTimePresent c then encodeSpliceTime p c.spliceTime.specified c.spliceTime.pts b else b
    let b := if c.durationFlag then encodeBreakDuration p c.breakDuration.autoReturn c.breakDuration.duration b else b
    let b := b.append 2 c.uniqueProgramId.toNat
    let b := b.append 1 c.available.toNat
    b.append 1 c.expected.toNat

/-- 40_section_encoder.md R98, `EncodeTimeSignal(c)`. -/
def encodeTimeSignal (p : Params) (c : TimeSignal) (b : Buffer) : Buffer := encodeSpliceTime p c.specified c.pts b

/-- 40_section_encoder.md R87, step 2: the variant chooses the body (R102: never `spliceCommandType`). -/
def encodeCommand (p : Params) (cmd : SpliceCommand) (b : Buffer) : Buffer :=
  match cmd with
  | .insert c => encodeSpliceInsert p c b
  | .time c   => encodeTimeSignal p c b

/-- 40_section_encoder.md R91, `EncodeDescriptors(ds)`. -/
def encodeDescriptors : List RawDescriptor → Buffer → Buffer
  | [],     b => b
  | d :: t, b => encodeDescriptors t (((b.append 1 d.tag.toNat).append 1 (d.data.length % 2 ^ 8)).appendBytes d.data)

/-- 40_section_encoder.md R93, `BackPatch(commandLength, descriptorLoopLength)`. -/
def backPatch (commandLength descriptorLoopLength : Nat) (b : Buffer) : Buffer :=
  let sectionLength := b.wp - 3 + 4
  let b := b.memWrite 2 2 (reservedLength sectionLength)
  let b := b.memWrite 13 2 (reservedLength commandLength)
  b.memWrite 16 2 (descriptorLoopLength % 2 ^ 16)

/-- 40_section_encoder.md R94: the trailer, over the buffer as the back-patch left it. -/
def appendTrailer (b : Buffer) : Buffer := b.append 4 (crc32 b.contents).toNat

/-- 40_section_encoder.md R87, `EncodeSection(s, variant)`: the two-pass, single-buffer algorithm. Whatever the working
buffer held before, the operation starts from an empty one (20_memory.md R48). -/
def encodeSection (p : Params) (s : SectionFields) (cmd : SpliceCommand) (ds : List RawDescriptor) (buf : Buffer) : Buffer :=
  let header := writeHeader p s buf.clear
  let body := encodeCommand p cmd header
  let commandLength := body.wp - header.wp
  let loop := encodeDescriptors ds body
  let descriptorLoopLength := loop.wp - body.wp
  appendTrailer (backPatch commandLength descriptorLoopLength loop)

/-- 40_section_encoder.md R95, R97: what the two ENC operations share. The checks stand in the order of 60_exceptions.md R157:
descriptors, then capacity. -/
def encodeOperation (s : SectionFields) (cmd : SpliceCommand) (ds : List Descriptor) (st : State) :
    Host.Outcome State Fault Refusal :=
  match decodeDescriptors ds with
  | none   => .next (st.raiseError .malformedDescriptorData)
  | some d =>
    if 22 + bodyLength cmd + descLength d > st.params.obufSize then .refused .sectionExceedsBuffer
    else
      let b := encodeSection st.params s cmd d st.buf
      .next ((st.respond ⟨errNone, b.wp, some b.contents, none, none, none⟩).dropBuffer)

/-- ENC.SI, 40_section_encoder.md R95. -/
def execEncSi (sec : SectionFields) (cmd : SpliceInsert) (ds : List Descriptor) (s : State) : Host.Outcome State Fault Refusal :=
  encodeOperation sec (.insert cmd) ds s

/-- ENC.TS, 40_section_encoder.md R97. -/
def execEncTs (sec : SectionFields) (cmd : TimeSignal) (ds : List Descriptor) (s : State) : Host.Outcome State Fault Refusal :=
  encodeOperation sec (.time cmd) ds s

end Sys2Proof.Machine
end

