-- ==== Sys2Proof/Machine/Cue.lean ====
section
/-! DEFINITION. The cue-command dispatcher's operations GEN.OUT, GEN.IN and GEN.CRASH (42_cue_generator.md). -/

namespace Sys2Proof.Machine

/-- 42_cue_generator.md R125: seconds to 90 kHz ticks, the exact product reduced modulo 2^33. -/
def ticks (sec : U32) : U33 := BitVec.ofNat 33 (sec.toNat * 90000)

/-- 42_cue_generator.md R123: the fixed header. -/
def fixedHeader : SectionFields where
  tableId                := 0xFC
  sectionSyntaxIndicator := false
  privateIndicator       := false
  protocolVersion        := 0
  encryptedPacket        := false
  encryptedAlgorithm     := 0
  ptsAdjustment          := 0
  cwIndex                := 0xFF
  tier                   := 0xFFF
  spliceCommandType      := 5

/-- 42_cue_generator.md R124: the common command fields; the flags and the two sub-structures of a cue type are set over them
(where a sub-structure is absent its wires are ignored, 10_state.md R15). -/
def commonCommand (id : U32) : SpliceInsert where
  spliceEventId              := id
  spliceEventCancelIndicator := false
  outOfNetworkIndicator      := false
  programSpliceFlag          := true
  durationFlag               := false
  spliceImmediateFlag        := false
  spliceTime                 := ⟨false, 0⟩
  breakDuration              := ⟨false, 0⟩
  uniqueProgramId            := 1
  available                  := 0
  expected                   := 0

/-- 42_cue_generator.md R126: the break's length in seconds, 600 if not supplied. -/
def adSeconds (op : CueCommand) : U32 := if op.adDurationValid then op.adDuration else 600

/-- 42_cue_generator.md R126: the command of a GEN.OUT section. -/
def cueOutCommand (id now ad : U32) : SpliceInsert :=
  { commonCommand id with
    outOfNetworkIndicator := true
    durationFlag          := true
    spliceTime            := ⟨true, ticks now⟩
    breakDuration         := ⟨true, ticks ad⟩ }

/-- 42_cue_generator.md R127: the command of a GEN.IN section. -/
def cueInCommand (id now : U32) : SpliceInsert := { commonCommand id with spliceTime := ⟨true, ticks now⟩ }

/-- 42_cue_generator.md R128: the command of a GEN.CRASH section. -/
def crashOutCommand (id : U32) : SpliceInsert := { commonCommand id with spliceImmediateFlag := true }

/-- 42_cue_generator.md R121, R129: what the three operations share once the event id is resolved to `id`: encode the section,
and answer its bytes, the id, the reading sampled and the command as presented. -/
def respondCue (op : Byte) (cue : CueCommand) (id : U32) (c : SpliceInsert) (s : State) : State :=
  let b := encodeSection s.params fixedHeader (.insert c) [] s.buf
  (s.respond ⟨errNone, b.wp, some b.contents, some id, some s.nowS, some ⟨op, cue⟩⟩).dropBuffer

/-- GEN.OUT, 42_cue_generator.md R126. -/
def execGenOut (cue : CueCommand) (s : State) : Host.Outcome State Fault Refusal :=
  let (id, s) := s.resolveEventId cue
  .next (respondCue opGenOut cue id (cueOutCommand id s.nowS (adSeconds cue)) s)

/-- GEN.IN, 42_cue_generator.md R127. -/
def execGenIn (cue : CueCommand) (s : State) : Host.Outcome State Fault Refusal :=
  let (id, s) := s.resolveEventId cue
  .next (respondCue opGenIn cue id (cueInCommand id s.nowS) s)

/-- GEN.CRASH, 42_cue_generator.md R128. -/
def execGenCrash (cue : CueCommand) (s : State) : Host.Outcome State Fault Refusal :=
  let (id, s) := s.resolveEventId cue
  .next (respondCue opGenCrash cue id (crashOutCommand id) s)

end Sys2Proof.Machine
end

