-- ==== Sys2Proof/Machine/Sequencer.lean ====
section
/-! DEFINITION. The event-id sequencer's operations SEQ.NEXT and SEQ.RESET (43_event_id_sequence.md). They do not use the working
buffer (20_memory.md R31). -/

namespace Sys2Proof.Machine

/-- SEQ.NEXT, 43_event_id_sequence.md R141. -/
def execSeqNext (s : State) : Host.Outcome State Fault Refusal :=
  let (v, s) := s.drawId
  .next (s.respond ⟨errNone, 0, none, some v, none, none⟩)

/-- SEQ.RESET, 43_event_id_sequence.md R144. -/
def execSeqReset (seed : U32) (s : State) : Host.Outcome State Fault Refusal :=
  .next ({ s with seq := seed }.respond ⟨errNone, 0, none, none, none, none⟩)

end Sys2Proof.Machine
end

