-- ==== Sys2Proof/Machine/Dispatch.lean ====
section
/-! DEFINITION. Which meaning each operation has (30_encoding.md R52). -/

namespace Sys2Proof.Machine

def exec (i : Instr) (s : State) : Host.Outcome State Fault Refusal :=
  match i with
  | .encSi sec cmd ds => Sys2Proof.Machine.execEncSi sec cmd ds s
  | .encTs sec cmd ds => Sys2Proof.Machine.execEncTs sec cmd ds s
  | .genOut cue => Sys2Proof.Machine.execGenOut cue s
  | .genIn cue => Sys2Proof.Machine.execGenIn cue s
  | .genCrash cue => Sys2Proof.Machine.execGenCrash cue s
  | .seqNext => Sys2Proof.Machine.execSeqNext s
  | .seqReset seed => Sys2Proof.Machine.execSeqReset seed s

end Sys2Proof.Machine
end

