-- ==== Sys2Proof/Machine/Step.lean ====
section
/-! DEFINITION. One step: the block takes what the outside presents next and performs it whole (00_scope.md R5,
10_state.md R13). -/

namespace Sys2Proof.Machine

/-- 60_exceptions.md R157: the opcode is tested first; an unlisted one raises UnsupportedCommand (R153) before any operand is
read. -/
def performCommand (c : Command) (s : State) : Host.Outcome State Fault Refusal :=
  match decode c with
  | .ok i    => exec i s
  | .error _ => .next (s.raiseError .unsupportedCommand)

/-- One step. With nothing presented the block does nothing (70_reset_and_hazards.md R181; log 6). A command is taken with the
clock reading presented with it (10_state.md R25; log 4). -/
def step (s : State) : Host.Outcome State Fault Refusal :=
  match s.events with
  | []                   => .next s
  | .reset :: rest       => .next { s with events := rest }.powerUp
  | .command c t :: rest => performCommand c { s with events := rest, nowS := t }

/-- The command a table word stands for, presented next, with the reading the clock port shows (log 5). -/
def State.withFetchWord (s : State) (nbits w : Nat) : State :=
  { s with events := .command (commandOfTableWord nbits w) s.nowS :: s.events }

end Sys2Proof.Machine
end

