-- ==== Sys2Proof/Machine/Views.lean ====
section
/-! DEFINITION. The two text views of a response's bytes (41_crc_and_views.md R113, R114) and the decoders their round trip is
stated with (R115). A text is a list of 8-bit character codes. Neither view is stored (10_state.md R22). -/

namespace Sys2Proof.Machine

/-- 41_crc_and_views.md R113: the upper-case hexadecimal digit of a value below 16. -/
def hexDigit (n : Nat) : Byte := if n < 10 then BitVec.ofNat 8 (0x30 + n) else BitVec.ofNat 8 (0x41 + (n - 10))

/-- 41_crc_and_views.md R113: the hex view. `hexDecode` is its decoder (40_section_encoder.md R92). -/
def hexView : List Byte → List Byte
  | []     => []
  | b :: t => hexDigit (b.toNat / 16) :: hexDigit (b.toNat % 16) :: hexView t

/-- 41_crc_and_views.md R114: the standard alphabet, `A`..`Z`, `a`..`z`, `0`..`9`, `+`, `/` (PRESUMED, log 14). -/
def base64Char (v : Nat) : Byte :=
  if v < 26 then BitVec.ofNat 8 (0x41 + v)
  else if v < 52 then BitVec.ofNat 8 (0x61 + (v - 26))
  else if v < 62 then BitVec.ofNat 8 (0x30 + (v - 52))
  else if v = 62 then 0x2B
  else 0x2F

/-- The padding character `=`. -/
def base64Pad : Byte := 0x3D

/-- 41_crc_and_views.md R114: the Base64 view, three bytes at a time, most significant bit first. -/
def base64View : List Byte → List Byte
  | []               => []
  | [a]              => [base64Char (a.toNat / 4), base64Char (a.toNat % 4 * 16), base64Pad, base64Pad]
  | [a, b]           =>
    [base64Char (a.toNat / 4), base64Char (a.toNat % 4 * 16 + b.toNat / 16), base64Char (b.toNat % 16 * 4), base64Pad]
  | a :: b :: c :: t =>
    base64Char (a.toNat / 4) :: base64Char (a.toNat % 4 * 16 + b.toNat / 16) ::
      base64Char (b.toNat % 16 * 4 + c.toNat / 64) :: base64Char (c.toNat % 64) :: base64View t

/-- The value of a character of the alphabet. -/
def base64Value (c : Byte) : Option Nat :=
  if 0x41 ≤ c.toNat ∧ c.toNat ≤ 0x5A then some (c.toNat - 0x41)
  else if 0x61 ≤ c.toNat ∧ c.toNat ≤ 0x7A then some (c.toNat - 0x61 + 26)
  else if 0x30 ≤ c.toNat ∧ c.toNat ≤ 0x39 then some (c.toNat - 0x30 + 52)
  else if c = 0x2B then some 62
  else if c = 0x2F then some 63
  else none

/-- The bytes of one group of four characters: three, or two or one where the group is padded. Padding is read in the last group
only; the unused bits of a padded group are ignored (DESIGN CHOICE, log 22). -/
def base64Group (last : Bool) (w x y z : Byte) : Option (List Byte) :=
  match base64Value w, base64Value x with
  | some p, some q =>
    if last ∧ y = base64Pad ∧ z = base64Pad then some [BitVec.ofNat 8 (p * 4 + q / 16)]
    else
      match base64Value y with
      | none   => none
      | some r =>
        if last ∧ z = base64Pad then some [BitVec.ofNat 8 (p * 4 + q / 16), BitVec.ofNat 8 (q % 16 * 16 + r / 4)]
        else
          match base64Value z with
          | none   => none
          | some s =>
            some [BitVec.ofNat 8 (p * 4 + q / 16), BitVec.ofNat 8 (q % 16 * 16 + r / 4), BitVec.ofNat 8 (r % 4 * 64 + s)]
  | _, _ => none

/-- 41_crc_and_views.md R115: decoding a Base64 text. -/
def base64Decode : List Byte → Option (List Byte)
  | []                    => some []
  | w :: x :: y :: z :: t =>
    match base64Group t.isEmpty w x y z, base64Decode t with
    | some g, some out => some (g ++ out)
    | _,      _        => none
  | _                     => none

end Sys2Proof.Machine
end

