-- ==== Sys2Proof/Machine/Calls.lean ====
section
/-! DEFINITION. The source's call shapes as a wrapper in front of the command port: their expansion to commands and their results
(30_encoding.md R54, R75; 10_state.md R29). -/

namespace Sys2Proof.Machine

/-- Why the wrapper refuses a call (93_implementation_defined.md U2, U11). -/
inductive CallRefusal where
  /-- A number is negative: it has no presentation at an unsigned port. -/
  | negativeField
  /-- An optional sub-structure is present or absent against its flags. -/
  | inconsistentRecord
  deriving DecidableEq, Repr

/-- 10_state.md R29: what a wrapper presents at a `w`-bit port for a number that is not negative, `value mod 2^w`. -/
def portValue (w : Nat) (n : Int) : BitVec w := BitVec.ofNat w n.toNat

/-- 30_encoding.md R74: an absent optional number has its `Valid` bit 0. That its value wire, which `ECHO` shows, is then 0 is the
model's own choice: the spec gives the `Valid` bit only (DESIGN CHOICE, unsafe, log 24). -/
def portOption (w : Nat) : Option Int → Bool × BitVec w
  | none   => (false, 0)
  | some n => (true, portValue w n)

/-! ## The cue type strings (30_encoding.md R54), as character codes -/

/-- "CUE-OUT". -/
def cueOutString : List Byte := [0x43, 0x55, 0x45, 0x2D, 0x4F, 0x55, 0x54]
/-- "CUE-IN". -/
def cueInString : List Byte := [0x43, 0x55, 0x45, 0x2D, 0x49, 0x4E]
/-- "CRASH-OUT". -/
def crashOutString : List Byte := [0x43, 0x52, 0x41, 0x53, 0x48, 0x2D, 0x4F, 0x55, 0x54]

/-- 30_encoding.md R54: an exact match, character for character; any other string corresponds to no opcode. -/
def cueOpcode (t : List Byte) : Option Byte :=
  if t = cueOutString then some opGenOut
  else if t = cueInString then some opGenIn
  else if t = crashOutString then some opGenCrash
  else none

/-- The unlisted opcode a wrapper presents for an unrecognised cue type: R54 says only that it is unlisted (DESIGN CHOICE,
log 12). -/
def unlistedOpcode : Byte := 0x20

/-! ## Records -/

def portSection (s : SourceSection) : SectionFields where
  tableId                := portValue 8 s.tableId
  sectionSyntaxIndicator := s.sectionSyntaxIndicator
  privateIndicator       := s.privateIndicator
  protocolVersion        := portValue 8 s.protocolVersion
  encryptedPacket        := s.encryptedPacket
  encryptedAlgorithm     := portValue 6 s.encryptedAlgorithm
  ptsAdjustment          := portValue 33 s.ptsAdjustment
  cwIndex                := portValue 8 s.cwIndex
  tier                   := portValue 12 s.tier
  spliceCommandType      := portValue 8 s.spliceCommandType

/-- 10_state.md R15. The wires of an absent splice time are 0: DESIGN CHOICE, safe, since no operation reads them then (log 24). -/
def portSpliceTime : Option SourceSpliceTime → SpliceTime
  | none   => ⟨false, 0⟩
  | some t => ⟨t.specified, portValue 33 t.pts⟩

/-- 10_state.md R15. The wires of an absent break duration are 0: DESIGN CHOICE, safe, as for the splice time (log 24). -/
def portBreakDuration : Option SourceBreakDuration → BreakDuration
  | none   => ⟨false, 0⟩
  | some d => ⟨d.autoReturn, portValue 33 d.duration⟩

def portInsert (c : SourceSpliceInsert) : SpliceInsert where
  spliceEventId              := portValue 32 c.spliceEventId
  spliceEventCancelIndicator := c.spliceEventCancelIndicator
  outOfNetworkIndicator      := c.outOfNetworkIndicator
  programSpliceFlag          := c.programSpliceFlag
  durationFlag               := c.durationFlag
  spliceImmediateFlag        := c.spliceImmediateFlag
  spliceTime                 := portSpliceTime c.spliceTime
  breakDuration              := portBreakDuration c.breakDuration
  uniqueProgramId            := portValue 16 c.uniqueProgramId
  available                  := portValue 8 c.available
  expected                   := portValue 8 c.expected

def portDescriptor (d : SourceDescriptor) : Descriptor := ⟨portValue 8 d.tag, d.form, d.data⟩

def portCue (eventId adDuration preRoll : Option Int) : CueCommand where
  eventIdValid    := (portOption 32 eventId).1
  eventId         := (portOption 32 eventId).2
  adDurationValid := (portOption 32 adDuration).1
  adDuration      := (portOption 32 adDuration).2
  preRollValid    := (portOption 8 preRoll).1
  preRollDuration := (portOption 8 preRoll).2

/-! ## The expansion -/

/-- 30_encoding.md R75: `encodeSection(section)` is ENC.SI or ENC.TS by the command's variant. -/
def expandSection (s : SourceSection) : Instr :=
  match s.spliceCommand with
  | .spliceInsert c   => .encSi (portSection s) (portInsert c) (s.descriptors.map portDescriptor)
  | .timeSignal sp t  => .encTs (portSection s) ⟨sp, portValue 33 t⟩ (s.descriptors.map portDescriptor)

/-- 30_encoding.md R75: the command a call presents, the checks left aside. -/
def commandOfCall : SourceCall → Command
  | .encodeSection s                           => encode (expandSection s)
  | .generateCue t eventId adDuration preRoll =>
    ⟨(cueOpcode t).getD unlistedOpcode, { Operands.zero with cue := portCue eventId adDuration preRoll }⟩
  | .next                                      => encode .seqNext
  | .reset seed                                => encode (.seqReset (portValue 32 seed))

/-- 30_encoding.md R75 with the wrapper's two checks (93_implementation_defined.md U2, U11). -/
def expandCall (c : SourceCall) : Except CallRefusal Command :=
  if !c.nonNegative then .error .negativeField
  else if !c.consistent then .error .inconsistentRecord
  else .ok (commandOfCall c)

/-! ## The results -/

/-- 30_encoding.md R75: the result of `encodeSection`. -/
structure EncodeResult where
  bytes  : List Byte
  base64 : List Byte
  hex    : List Byte
  deriving DecidableEq, Repr

/-- 30_encoding.md R75: the result of `generateCue`, the source's `SCTE35Message`. -/
structure CueResult where
  bytes         : List Byte
  base64        : List Byte
  hex           : List Byte
  eventId       : U32
  echoedCommand : Echo
  timestamp     : U32
  deriving DecidableEq, Repr

/-- The result of `encodeSection` from the response; none where no bytes were output (41_crc_and_views.md R115). -/
def encodeResult (r : Response) : Option EncodeResult :=
  r.obuf.map fun b => ⟨b, base64View b, hexView b⟩

/-- The result of `generateCue` from the response. -/
def cueResult (r : Response) : Option CueResult :=
  match r.obuf, r.evid, r.echo, r.tstamp with
  | some b, some id, some e, some t => some ⟨b, base64View b, hexView b, id, e, t⟩
  | _,      _,       _,      _      => none

end Sys2Proof.Machine
end

