-- ==== Sys2Proof/Machine/HostPort.lean ====
section
/-! DEFINITION. What a host reads of the block (10_state.md R22, R24): the response latch. Reading changes nothing. A field the
most recent operation did not define has no value, and reading it is a fault of the host. -/

namespace Sys2Proof.Machine

/-- The error code: every operation defines it. -/
def State.hostErr (s : State) : BitVec 2 := s.rsp.err

/-- The number of bytes output: every operation defines it. -/
def State.hostOlen (s : State) : Nat := s.rsp.olen

/-- A defined field's value, or the host's fault. -/
def readField {α : Type} : Option α → Except Fault α
  | some v => .ok v
  | none   => .error .responseFieldHasNoValue

/-- Output byte `i`: defined below `OLEN` only. -/
def State.hostObuf (s : State) (i : Nat) : Except Fault Byte :=
  if i < s.rsp.olen then readField (s.rsp.obuf.bind (·[i]?)) else .error .responseFieldHasNoValue

def State.hostEvid (s : State) : Except Fault U32 := readField s.rsp.evid
def State.hostTstamp (s : State) : Except Fault U32 := readField s.rsp.tstamp
def State.hostEcho (s : State) : Except Fault Echo := readField s.rsp.echo

end Sys2Proof.Machine
end

