-- ==== Sys2Proof/Machine/Image.lean ====
section
/-! DEFINITION. The layout of a section as 30_encoding.md gives it (R55 to R70): header, command body, descriptor loop, trailer,
as one byte string. The encoder of Machine/Encoder.lean does not use it; that its two passes produce this layout is a statement. -/

namespace Sys2Proof.Machine

/-- 30_encoding.md R55: the header, with the three length fields holding the given lengths. -/
def headerImage (p : Params) (s : SectionFields) (sl cl dl : Nat) : List Byte :=
  [s.tableId, flagsByte s] ++ beBytes 2 (reservedLength sl) ++ [s.protocolVersion, encryptionByte p s] ++
    beBytes 4 (low32 s.ptsAdjustment).toNat ++ [s.cwIndex] ++ beBytes 2 (tierWord s).toNat ++
    beBytes 2 (reservedLength cl) ++ [s.spliceCommandType] ++ beBytes 2 (dl % 2 ^ 16)

/-- 30_encoding.md R64: the splice time. -/
def spliceTimeImage (p : Params) (specified : Bool) (pts : U33) : List Byte :=
  if specified then [0x80, boolByte (ovf p pts)] ++ beBytes 4 (low32 pts).toNat else [0x00]

/-- 30_encoding.md R65: the break duration. -/
def breakDurationImage (p : Params) (autoReturn : Bool) (duration : U33) : List Byte :=
  breakByte p autoReturn duration :: beBytes 4 (low32 duration).toNat

/-- 30_encoding.md R66: the body of a splice insert. -/
def spliceInsertImage (p : Params) (c : SpliceInsert) : List Byte :=
  beBytes 4 c.spliceEventId.toNat ++
    if c.spliceEventCancelIndicator then [0x80]
    else
      [0x00, insertFlagsByte c] ++
        (if spliceTimePresent c then spliceTimeImage p c.spliceTime.specified c.spliceTime.pts else []) ++
        (if c.durationFlag then breakDurationImage p c.breakDuration.autoReturn c.breakDuration.duration else []) ++
        beBytes 2 c.uniqueProgramId.toNat ++ [c.available, c.expected]

/-- 30_encoding.md R66, R67: the command body. -/
def bodyImage (p : Params) : SpliceCommand → List Byte
  | .insert c => spliceInsertImage p c
  | .time c   => spliceTimeImage p c.specified c.pts

/-- 30_encoding.md R68: one descriptor. -/
def descriptorImage (d : RawDescriptor) : List Byte := d.tag :: BitVec.ofNat 8 d.data.length :: d.data

/-- 30_encoding.md R68: the descriptor loop. -/
def loopImage (ds : List RawDescriptor) : List Byte := ds.flatMap descriptorImage

/-- 30_encoding.md R70: everything before the trailer. -/
def coveredImage (p : Params) (s : SectionFields) (cmd : SpliceCommand) (ds : List RawDescriptor) : List Byte :=
  headerImage p s (19 + (bodyImage p cmd).length + (loopImage ds).length) (bodyImage p cmd).length (loopImage ds).length ++
    bodyImage p cmd ++ loopImage ds

/-- 30_encoding.md R69, R70: the section. -/
def sectionImage (p : Params) (s : SectionFields) (cmd : SpliceCommand) (ds : List RawDescriptor) : List Byte :=
  coveredImage p s cmd ds ++ beBytes 4 (crc32 (coveredImage p s cmd ds)).toNat

end Sys2Proof.Machine
end

