-- ==== Sys2Proof/Safety.lean ====
section
/-! DEFINITION. The terms statements are made in: a run and what it leaves (70_reset_and_hazards.md R181), the ids a run draws
(43_event_id_sequence.md R145), what every output section satisfies, and the invariant every step keeps. -/

namespace Sys2Proof.Machine

/-! ## Runs -/

/-- `k` steps. -/
def run (k : Nat) (s : State) : Host.Outcome State Fault Refusal := Sys2Proof.core.run k s

/-- The run of `k` steps meets no refusal and no fault: a claim about a run holds of such runs only (60_exceptions.md R168). -/
def RunsTo (k : Nat) (s t : State) : Prop := run k s = .next t

/-- Is this event a command? A reset is none, and has no response (70_reset_and_hazards.md R172, R181). -/
def Event.isCommand : Event → Bool
  | .command _ _ => true
  | .reset       => false

/-- Does the next step of `s` take a command? -/
def State.takesCommand (s : State) : Bool :=
  match s.events with
  | []     => false
  | e :: _ => e.isCommand

/-- 70_reset_and_hazards.md R181: the responses of the commands taken by the first `k` steps, oldest first. A step that takes no
command (nothing presented, or a reset) adds none, and none follows a command that is refused. -/
def responses : Nat → State → List Response
  | 0,     _ => []
  | k + 1, s =>
    match step s with
    | .next t => (if s.takesCommand then [t.rsp] else []) ++ responses k t
    | _       => []

/-- 70_reset_and_hazards.md R181: `s` with exactly these commands presented, each with its draw `now_s`, oldest first. -/
def State.present (cs : List (Command × U32)) (s : State) : State := { s with events := cs.map fun c => .command c.1 c.2 }

/-- 70_reset_and_hazards.md R181: what a run leaves behind. With no command taken there is no last response
(92_eei_decisions.md D30). -/
structure RunLeaves where
  seq       : U32
  last      : Option Response
  responses : List Response
  deriving DecidableEq, Repr

/-- 70_reset_and_hazards.md R181: a run, a finite sequence of commands with their draws taken from a start state. It ends when no
further command is presented; `none` if a command is refused (60_exceptions.md R168). -/
def runCommands (cs : List (Command × U32)) (s : State) : Option RunLeaves :=
  match run cs.length (s.present cs) with
  | .next t =>
    some ⟨t.seq, (responses cs.length (s.present cs)).getLast?, responses cs.length (s.present cs)⟩
  | _ => none

/-- 43_event_id_sequence.md R145: the operations that read `SEQ`: SEQ.NEXT, and GEN with no supplied id. -/
def drawsId : Instr → Bool
  | .seqNext => true
  | .genOut cue | .genIn cue | .genCrash cue => !cue.eventIdValid
  | .encSi _ _ _ | .encTs _ _ _ | .seqReset _ => false

/-- Does taking this event draw an id? An unlisted opcode draws none (42_cue_generator.md R132). -/
def Event.draws : Event → Bool
  | .reset => false
  | .command c _ =>
    match decode c with
    | .ok i    => drawsId i
    | .error _ => false

/-- Does taking this event overwrite `SEQ` (a reset, or SEQ.RESET)? -/
def Event.reseeds : Event → Bool
  | .reset => true
  | .command c _ =>
    match decode c with
    | .ok (.seqReset _) => true
    | _                 => false

/-- Does the next step of `s` draw an id? -/
def State.drawsNext (s : State) : Bool :=
  match s.events with
  | []     => false
  | e :: _ => e.draws

/-- The ids drawn from `SEQ` by the first `k` steps, as the responses report them, in the order the block takes the commands. -/
def drawnIds : Nat → State → List U32
  | 0,     _ => []
  | k + 1, s =>
    match step s with
    | .next t => (if s.drawsNext then t.rsp.evid.toList else []) ++ drawnIds k t
    | _       => []

/-! ## What every output section satisfies -/

/-- The unsigned value of the `n` bytes at offset `a` of a byte string, big-endian (00_scope.md R9). -/
def fieldAt (l : List Byte) (a n : Nat) : Nat := beValue ((l.drop a).take n)

/-- 30_encoding.md R72, 40_section_encoder.md R96, R98: the byte counts a command body can have. -/
def bodyLengths : List Nat := [1, 5, 6, 10, 11, 15, 16, 21]

/-- 40_section_encoder.md R99: with `CL` read from offsets 13 and 14 and `DL` what remains, the three length fields hold the
lengths of the regions they describe. -/
def lengthFieldsOk (l : List Byte) : Prop :=
  ∃ cl dl : Nat, cl ∈ bodyLengths ∧ l.length = 22 + cl + dl ∧
    fieldAt l 2 2 = 0xF000 + (19 + cl + dl) % 2 ^ 12 ∧ fieldAt l 13 2 = 0xF000 + cl ∧ fieldAt l 16 2 = dl % 2 ^ 16

/-- 30_encoding.md R71: the reserved bits of the header. -/
def reservedBitsOk (l : List Byte) : Prop :=
  fieldAt l 1 1 % 64 = 0x30 ∧ fieldAt l 2 1 / 16 = 0xF ∧ fieldAt l 12 1 % 16 = 0xF ∧ fieldAt l 13 1 / 16 = 0xF

/-- 41_crc_and_views.md R112: the last four bytes are the CRC of all the others. -/
def crcOk (l : List Byte) : Prop :=
  4 ≤ l.length ∧ (crc32 (l.take (l.length - 4))).toNat = fieldAt l (l.length - 4) 4

/-- What every section the block outputs satisfies. -/
structure SectionOk (l : List Byte) : Prop where
  lengths  : lengthFieldsOk l
  reserved : reservedBitsOk l
  crc      : crcOk l

/-! ## Words statements are made with -/

/-- The ENC operation that carries a splice command (30_encoding.md R75: ENC.SI or ENC.TS by the variant). -/
def encInstr (sec : SectionFields) (cmd : SpliceCommand) (ds : List Descriptor) : Instr :=
  match cmd with
  | .insert c => .encSi sec c ds
  | .time c   => .encTs sec c ds

/-- The operation `i` performed in `s` completes and outputs the bytes `l`. -/
def Outputs (i : Instr) (s : State) (l : List Byte) : Prop := ∃ t, exec i s = .next t ∧ t.rsp.obuf = some l

/-- 30_encoding.md R62: the overflow bit as a number. -/
def overflowBit (p : Params) (v : U33) : Nat := if p.legacyOvf then 0 else v.toNat / 2 ^ 32

/-- A 33-bit value with bit 32 cleared. -/
def withoutBit32 (v : U33) : U33 := BitVec.ofNat 33 (v.toNat % 2 ^ 32)

/-- 40_section_encoder.md R92: the codes of '0'..'9', 'A'..'F', 'a'..'f'. -/
def isHexDigit (c : Byte) : Prop :=
  (0x30 ≤ c.toNat ∧ c.toNat ≤ 0x39) ∨ (0x41 ≤ c.toNat ∧ c.toNat ≤ 0x46) ∨ (0x61 ≤ c.toNat ∧ c.toNat ≤ 0x66)

/-- 60_exceptions.md R154: a descriptor in `HEX` form whose string has odd length or holds a character that is no hex digit. -/
def malformedDescriptor (d : Descriptor) : Prop :=
  d.form = .hex ∧ (d.data.length % 2 = 1 ∨ ∃ c ∈ d.data, ¬ isHexDigit c)

/-- 40_section_encoder.md R92: `x` is the value of the hex digit `c`. -/
def HexDigitValue (c : Byte) (x : Nat) : Prop :=
  (x ≤ 9 ∧ c.toNat = 0x30 + x) ∨ (10 ≤ x ∧ x ≤ 15 ∧ (c.toNat = 0x41 + (x - 10) ∨ c.toNat = 0x61 + (x - 10)))

/-- 42_cue_generator.md R123: the header bytes of every GEN section, with its section and command lengths. -/
def cueHeader (sl cl : Byte) : List Byte :=
  [0xFC, 0x30, 0xF0, sl, 0x00, 0x00, 0x00, 0x00, 0x00, 0x00, 0xFF, 0xFF, 0xFF, 0xF0, cl, 0x05, 0x00, 0x00]

/-- 30_encoding.md R69: a byte string followed by its CRC, big-endian. -/
def withTrailer (l : List Byte) : List Byte := l ++ beBytes 4 (crc32 l).toNat

/-- 30_encoding.md R64: a specified splice time. -/
def specifiedTime (p : Params) (ticks : Nat) : List Byte :=
  [0x80, BitVec.ofNat 8 (if p.legacyOvf then 0 else ticks / 2 ^ 32)] ++ beBytes 4 (ticks % 2 ^ 32)

/-- 42_cue_generator.md R122: the event id of a GEN operation, supplied or drawn, and what `SEQ` becomes. -/
def cueId (cue : CueCommand) (s : State) : U32 := if cue.eventIdValid then cue.eventId else s.seq
def cueSeq (cue : CueCommand) (s : State) : U32 := if cue.eventIdValid then s.seq else s.seq + 1

/-- 10_state.md R22, the table's last column: the GEN operations. -/
def isGen : Instr → Bool
  | .genOut _ | .genIn _ | .genCrash _ => true
  | .encSi _ _ _ | .encTs _ _ _ | .seqNext | .seqReset _ => false

/-- 10_state.md R22: the ENC operations. -/
def isEnc : Instr → Bool
  | .encSi _ _ _ | .encTs _ _ _ => true
  | .genOut _ | .genIn _ | .genCrash _ | .seqNext | .seqReset _ => false

/-- The host's reads of every field but `ERR` and `OLEN` fault (10_state.md R22). -/
def State.NothingToRead (s : State) : Prop :=
  (∀ j, s.hostObuf j = .error .responseFieldHasNoValue) ∧ s.hostEvid = .error .responseFieldHasNoValue ∧
    s.hostTstamp = .error .responseFieldHasNoValue ∧ s.hostEcho = .error .responseFieldHasNoValue

/-- The operand wires an instruction is read from (10_state.md R14 to R19). -/
def Operands.present (o : Operands) : Instr → Prop
  | .encSi sec cmd ds => o.sect = sec ∧ o.insert = cmd ∧ o.descriptors = ds
  | .encTs sec cmd ds => o.sect = sec ∧ o.time = cmd ∧ o.descriptors = ds
  | .genOut cue | .genIn cue | .genCrash cue => o.cue = cue
  | .seqNext => True
  | .seqReset seed => o.seed = seed

/-! ## What a wrapper presents -/

/-- 10_state.md R29: a `w`-bit port holds a wrapper's number modulo 2^w; a negative number has no presentation
(93_implementation_defined.md U2). -/
def Presents {w : Nat} (port : BitVec w) (n : Int) : Prop := 0 ≤ n ∧ (port.toNat : Int) = n % 2 ^ w

/-- 30_encoding.md R74: an optional number: its `Valid` bit is its presence. What the value wire of an absent number holds is not
said (log 24). -/
def PresentsOption {w : Nat} (valid : Bool) (port : BitVec w) : Option Int → Prop
  | none   => valid = false
  | some n => valid = true ∧ Presents port n

/-- 10_state.md R14: the section fields at the ports. -/
def PresentsSection (p : SectionFields) (s : SourceSection) : Prop :=
  Presents p.tableId s.tableId ∧ p.sectionSyntaxIndicator = s.sectionSyntaxIndicator ∧
    p.privateIndicator = s.privateIndicator ∧ Presents p.protocolVersion s.protocolVersion ∧
    p.encryptedPacket = s.encryptedPacket ∧ Presents p.encryptedAlgorithm s.encryptedAlgorithm ∧
    Presents p.ptsAdjustment s.ptsAdjustment ∧ Presents p.cwIndex s.cwIndex ∧ Presents p.tier s.tier ∧
    Presents p.spliceCommandType s.spliceCommandType

/-- 10_state.md R15: the splice insert's fields at the ports. A sub-structure that is there is presented; unless the record is
cancelled, it is there exactly when its flag condition holds (93_implementation_defined.md U11). -/
def PresentsInsert (p : SpliceInsert) (c : SourceSpliceInsert) : Prop :=
  Presents p.spliceEventId c.spliceEventId ∧ p.spliceEventCancelIndicator = c.spliceEventCancelIndicator ∧
    p.outOfNetworkIndicator = c.outOfNetworkIndicator ∧ p.programSpliceFlag = c.programSpliceFlag ∧
    p.durationFlag = c.durationFlag ∧ p.spliceImmediateFlag = c.spliceImmediateFlag ∧
    (∀ t, c.spliceTime = some t → p.spliceTime.specified = t.specified ∧ Presents p.spliceTime.pts t.pts) ∧
    (∀ d, c.breakDuration = some d → p.breakDuration.autoReturn = d.autoReturn ∧ Presents p.breakDuration.duration d.duration) ∧
    Presents p.uniqueProgramId c.uniqueProgramId ∧ Presents p.available c.available ∧ Presents p.expected c.expected ∧
    (c.spliceEventCancelIndicator = false →
      (c.spliceTime.isSome = true ↔ c.programSpliceFlag = true ∧ c.spliceImmediateFlag = false) ∧
      (c.breakDuration.isSome = true ↔ c.durationFlag = true))

/-- 30_encoding.md R75: the command `c` presents the call, opcode and every port. -/
def PresentsCall (c : Command) : SourceCall → Prop
  | .encodeSection s =>
    PresentsSection c.operands.sect s ∧
    List.Forall₂ (fun (p : Descriptor) (d : SourceDescriptor) => Presents p.tag d.tag ∧ p.form = d.form ∧ p.data = d.data)
      c.operands.descriptors s.descriptors ∧
    match s.spliceCommand with
    | .spliceInsert r          => c.op = 0x15 ∧ PresentsInsert c.operands.insert r
    | .timeSignal specified pts => c.op = 0x16 ∧ c.operands.time.specified = specified ∧ Presents c.operands.time.pts pts
  | .generateCue _ eventId adDuration preRoll =>
    PresentsOption c.operands.cue.eventIdValid c.operands.cue.eventId eventId ∧
      PresentsOption c.operands.cue.adDurationValid c.operands.cue.adDuration adDuration ∧
      PresentsOption c.operands.cue.preRollValid c.operands.cue.preRollDuration preRoll
  | .next       => c.op = 0x31
  | .reset seed => c.op = 0x32 ∧ Presents c.operands.seed seed

/-! ## The invariant -/

/-- 10_state.md R22, R24, 60_exceptions.md R151, R152: which fields of the response have a value together, and what they hold. -/
structure ResponseOk (p : Params) (r : Response) : Prop where
  /-- Code 3 is never produced (R152). -/
  code    : r.err ≠ 3
  /-- `OLEN` counts the output bytes; with no output it is 0 (R22). -/
  count   : r.olen = (r.obuf.getD []).length
  /-- `OLEN` is at most `OBUF_SIZE` (R24). -/
  fits    : r.olen ≤ p.obufSize
  /-- Every output is a section as the encoding has it. -/
  bytes   : ∀ b, r.obuf = some b → SectionOk b
  /-- An error leaves every other field without a value (R151). -/
  failed  : r.err ≠ 0 → r.obuf = none ∧ r.evid = none ∧ r.tstamp = none ∧ r.echo = none
  /-- `TSTAMP` and `ECHO` are defined by a GEN operation only, and with them `EVID` and the bytes (R22). -/
  stamped : r.tstamp.isSome = r.echo.isSome
  cue     : r.tstamp.isSome = true → r.obuf.isSome = true ∧ r.evid.isSome = true ∧ r.olen ≤ 43
  echoed  : ∀ e, r.echo = some e → e.op ∈ [opGenOut, opGenIn, opGenCrash]

/-- The invariant of the block between operations. -/
structure BlockInv (s : State) : Prop where
  /-- 00_scope.md R6: `OBUF_SIZE` is at least 43. -/
  straps   : s.params.wellFormed = true
  /-- The response latch is one an operation, an error or reset leaves. -/
  response : ResponseOk s.params s.rsp
  /-- 10_state.md R26, R27: nothing of the working buffer survives an operation. -/
  buffer   : s.buf = Buffer.empty

end Sys2Proof.Machine
end

