-- ==== Sys2Proof/Certificates/Slice0/Obligations.lean ====
section
/-! DEFINITION. The statements about the model, from the numbered rules of spec/. Each docstring says which rules a statement
formalises; where one rests on a choice of the spec's or the model's own it says so. -/

open Sys2Proof Sys2Proof.Machine

/-! ## Commands, decoding, the step -/

/-- 30_encoding.md R52 (opcode values: the spec's own, D2): the seven opcode bytes, written out bit by bit, decode to the
operations they stand for, with the operand record each calls for. -/
def Obligations.SampleOpcodesDecode : Prop :=
  ∀ o : Operands,
    decode ⟨0b00010101, o⟩ = .ok (.encSi o.sect o.insert o.descriptors) ∧
    decode ⟨0b00010110, o⟩ = .ok (.encTs o.sect o.time o.descriptors) ∧
    decode ⟨0b00100001, o⟩ = .ok (.genOut o.cue) ∧
    decode ⟨0b00100010, o⟩ = .ok (.genIn o.cue) ∧
    decode ⟨0b00100011, o⟩ = .ok (.genCrash o.cue) ∧
    decode ⟨0b00110001, o⟩ = .ok .seqNext ∧
    decode ⟨0b00110010, o⟩ = .ok (.seqReset o.seed)

/-- 30_encoding.md R52, R53: decoding and encoding agree, for every instruction and every operand value; a command decodes to an
instruction exactly when it carries that instruction's opcode and operand record; and 249 of the 256 opcodes decode to none. -/
def Obligations.DecodeAndEncodeAgree : Prop :=
  (∀ i, decode (encode i) = .ok i) ∧
  (∀ c i, decode c = .ok i ↔ c.op = (encode i).op ∧ Operands.present c.operands i) ∧
  (∀ o : Operands, ((List.range 256).filter fun n => (decode ⟨BitVec.ofNat 8 n, o⟩).toOption.isNone).length = 249)

/-- 00_scope.md R5, 10_state.md R13, R25: a step performs the command presented next, whole, with the clock reading presented
with it; around `exec` it only takes the event and latches the reading (the input side is the model's own, log 2 and log 4). -/
def Obligations.StepRunsTheDecodedCommand : Prop :=
  ∀ (s : State) (c : Command) (t : U32) (rest : List Event) (i : Instr),
    s.events = .command c t :: rest → decode c = .ok i → step s = exec i { s with events := rest, nowS := t }

/-- 30_encoding.md R53, 42_cue_generator.md R132, 60_exceptions.md R151, R153 (the extension to every unlisted opcode is the
spec's own, D26): a command with an unlisted opcode, whatever its operands, raises UnsupportedCommand: the response has code 1,
no bytes and nothing else defined, the working buffer is dropped, and nothing else changes (`SEQ` does not move). -/
def Obligations.UnlistedOpcodeRaisesUnsupportedCommand : Prop :=
  ∀ (s : State) (c : Command) (t : U32) (rest : List Event),
    s.events = .command c t :: rest → c.op ∉ ([0x15, 0x16, 0x21, 0x22, 0x23, 0x31, 0x32] : List Byte) →
      step s = .next { s with rsp := ⟨1, 0, none, none, none, none⟩, buf := ⟨[], 0⟩, events := rest, nowS := t }

/-- 10_state.md R27, 70_reset_and_hazards.md R172 (the seed is the source's, the other values the spec's own, D30; the straps at
their defaults, R6): what reset leaves. Nothing is presented (log 5). -/
def Obligations.ResetStateValues : Prop :=
  State.reset.seq = 100023 ∧ State.reset.rsp = ⟨0, 0, none, none, none, none⟩ ∧ State.reset.buf = ⟨[], 0⟩ ∧
    State.reset.params = ⟨100023, false, 4098⟩ ∧ State.reset.events = []

/-- 70_reset_and_hazards.md R171, R172, R173 (reset as an event among the commands is the model's, log 7): a reset between
operations returns `SEQ` to the seed and the response to its reset value, drops the working buffer, leaves the straps; the ids
drawn after it are those drawn from a fresh reset with the same commands. -/
def Obligations.ResetEventReseeds : Prop :=
  ∀ (s : State) (rest : List Event), s.events = .reset :: rest →
    step s = .next { s with seq := s.params.seqSeed, rsp := ⟨0, 0, none, none, none, none⟩, buf := ⟨[], 0⟩, events := rest } ∧
    ∀ k, drawnIds (k + 1) s = drawnIds k { State.resetWith s.params with events := rest, nowS := s.nowS }

/-- 70_reset_and_hazards.md R181 (the block never ends a run by itself); that a step with nothing presented leaves the state as it
is, is the model's choice (DESIGN CHOICE, log 6). -/
def Obligations.IdleStepKeepsState : Prop := ∀ s : State, s.events = [] → step s = .next s

/-! ## The sequencer -/

/-- 43_event_id_sequence.md R141, with the wrap of R143 (the spec's own choice D13, log 17) and the opcode of R52 (D2): SEQ.NEXT,
opcode 0x31, completes in every state; it returns the current value and increments modulo 2^32, responds ERR 0, OLEN 0, EVID, the
other fields without value (D5, log 8), and writes `SEQ` and `RSP` only. The example: from 100023 it returns 100023 and leaves
100024. -/
def Obligations.SeqNextReturnsThenIncrements : Prop :=
  (∀ o, decode ⟨0x31, o⟩ = .ok .seqNext) ∧
  (∀ s : State, exec .seqNext s =
    .next { s with seq := BitVec.ofNat 32 ((s.seq.toNat + 1) % 2 ^ 32), rsp := ⟨0, 0, none, some s.seq, none, none⟩ }) ∧
  (∀ s t : State, s.seq = 100023 → exec .seqNext s = .next t → t.rsp.evid = some 100023 ∧ t.seq = 100024)

/-- 43_event_id_sequence.md R143 (the wrap is the spec's own choice, D13): from 0xFFFFFFFF, SEQ.NEXT and every drawing GEN return
0xFFFFFFFF and leave 0. -/
def Obligations.CounterWrapsToZero : Prop :=
  ∀ (i : Instr) (s : State), drawsId i = true → s.seq = 0xFFFFFFFF →
    ∃ t, exec i s = .next t ∧ t.rsp.evid = some 0xFFFFFFFF ∧ t.seq = 0

/-- 43_event_id_sequence.md R144, with the opcode of 30_encoding.md R52 (the spec's own, D2): SEQ.RESET, opcode 0x32, accepts any
seed in any state, overwrites the counter with it, responds ERR 0, OLEN 0, the other fields without value (D5, log 8), and writes
`SEQ` and `RSP` only. The example: seed 5, then three SEQ.NEXT respond 5, 6, 7 and leave 8. -/
def Obligations.SeqResetOverwritesCounter : Prop :=
  (∀ o : Operands, decode ⟨0x32, o⟩ = .ok (.seqReset o.seed)) ∧
  (∀ (seed : U32) (s : State), exec (.seqReset seed) s = .next { s with seq := seed, rsp := ⟨0, 0, none, none, none, none⟩ }) ∧
  (∀ s s1 s2 s3 s4 : State, exec (.seqReset 5) s = .next s1 → exec .seqNext s1 = .next s2 → exec .seqNext s2 = .next s3 →
    exec .seqNext s3 = .next s4 →
    s2.rsp.evid = some 5 ∧ s3.rsp.evid = some 6 ∧ s4.rsp.evid = some 7 ∧ s4.seq = 8)

/-- 43_event_id_sequence.md R145 (with the wrap of R143, the spec's own choice D13, log 17; the order of commands is that of the
event list, log 2): in any run with no reseeding event (a reset, log 7, or SEQ.RESET) among the events taken, whatever the commands
and whoever presents them, the drawn ids are S, S+1, ... modulo 2^32 in the order the block takes the commands; and if the run meets
no refusal, there is one for every drawing command, and `SEQ` has moved by their number. -/
def Obligations.SequencerMonotonicity : Prop :=
  ∀ (k : Nat) (s : State), (∀ e ∈ s.events.take k, e.reseeds = false) →
    drawnIds k s = (List.range (drawnIds k s).length).map (fun n => s.seq + BitVec.ofNat 32 n) ∧
    ∀ t, RunsTo k s t →
      (drawnIds k s).length = ((s.events.take k).filter Event.draws).length ∧
      t.seq = s.seq + BitVec.ofNat 32 (drawnIds k s).length

/-- 43_event_id_sequence.md R142, R145, 70_reset_and_hazards.md R175: with no reseeding event (SEQ.RESET, or a reset, log 7) among the
events taken, and at most 2^32 draws, no id is handed out twice. R143 itself asks the premise of fewer than 2^32 - SEQ draws, before the
counter wraps; the wider bound here, every start value included, rests on the wrap, the spec's own choice (D13, log 17). The order of
draws is that of the model's event list (DESIGN CHOICE, log 2). -/
def Obligations.DrawnIdsNeverRepeat : Prop :=
  ∀ (k : Nat) (s : State), (∀ e ∈ s.events.take k, e.reseeds = false) → (drawnIds k s).length ≤ 2 ^ 32 → (drawnIds k s).Nodup

/-- 10_state.md R20, 42_cue_generator.md R122, 60_exceptions.md R151: `SEQ` is written by SEQ.RESET (the operand), by SEQ.NEXT and
by a GEN operation that draws an id (incremented), and touched by nothing else. -/
def Obligations.OnlyDrawsAndReseedsMoveSeq : Prop :=
  ∀ (i : Instr) (s t : State), exec i s = .next t →
    t.seq = match i with
      | .seqReset seed => seed
      | .seqNext => s.seq + 1
      | .genOut cue | .genIn cue | .genCrash cue => if cue.eventIdValid then s.seq else s.seq + 1
      | .encSi _ _ _ | .encTs _ _ _ => s.seq

/-! ## The dispatcher -/

/-- 42_cue_generator.md R126: GEN.OUT, opcode 0x21, completes in every state and for every record. The next state whole: `SEQ`
incremented when no id is supplied; ERR 0, OLEN 43, EVID the resolved id, TSTAMP the reading sampled, ECHO the command; the 43
bytes with section length 40, command length 21, flags byte E0, the splice time at `now * 90000` and the break duration at
`ad * 90000` modulo 2^33, `ad` 600 if not supplied; nothing else changes. The opcode (D2), ECHO and TSTAMP (D19), the reduction (D16),
the overflow bit's parameter (D12) and the header's algorithm 0 (D7) are the spec's own choices. -/
def Obligations.GenOutSection : Prop :=
  (∀ o : Operands, decode ⟨0x21, o⟩ = .ok (.genOut o.cue)) ∧
  ∀ (cue : CueCommand) (s : State),
    let now := s.nowS.toNat * 90000 % 2 ^ 33
    let ad := (if cue.adDurationValid then cue.adDuration.toNat else 600) * 90000 % 2 ^ 33
    let adBit := if s.params.legacyOvf then 0 else ad / 2 ^ 32
    exec (.genOut cue) s = .next { s with
      seq := cueSeq cue s
      rsp := ⟨0, 43, some (withTrailer (cueHeader 40 21 ++ beBytes 4 (cueId cue s).toNat ++ [0x00, 0xE0] ++
          specifiedTime s.params now ++ [BitVec.ofNat 8 (0x80 + adBit)] ++ beBytes 4 (ad % 2 ^ 32) ++ [0x00, 0x01, 0x00, 0x00])),
        some (cueId cue s), some s.nowS, some ⟨0x21, cue⟩⟩
      buf := ⟨[], 0⟩ }

/-- 42_cue_generator.md R127: GEN.IN, opcode 0x22, completes in every state and for every record: 38 bytes, section length 35,
command length 16, flags byte 40, no break duration. The spec's own choices as in GenOutSection. -/
def Obligations.GenInSection : Prop :=
  (∀ o : Operands, decode ⟨0x22, o⟩ = .ok (.genIn o.cue)) ∧
  ∀ (cue : CueCommand) (s : State),
    exec (.genIn cue) s = .next { s with
      seq := cueSeq cue s
      rsp := ⟨0, 38, some (withTrailer (cueHeader 35 16 ++ beBytes 4 (cueId cue s).toNat ++ [0x00, 0x40] ++
          specifiedTime s.params (s.nowS.toNat * 90000 % 2 ^ 33) ++ [0x00, 0x01, 0x00, 0x00])),
        some (cueId cue s), some s.nowS, some ⟨0x22, cue⟩⟩
      buf := ⟨[], 0⟩ }

/-- 42_cue_generator.md R128: GEN.CRASH, opcode 0x23, completes in every state and for every record: 32 bytes, section length 29,
command length 10, flags byte 50, no splice time, no break duration; the bytes depend on the event id alone. The spec's own choices: D2, D7, D19. -/
def Obligations.GenCrashSection : Prop :=
  (∀ o : Operands, decode ⟨0x23, o⟩ = .ok (.genCrash o.cue)) ∧
  ∀ (cue : CueCommand) (s : State),
    exec (.genCrash cue) s = .next { s with
      seq := cueSeq cue s
      rsp := ⟨0, 32, some (withTrailer (cueHeader 29 10 ++ beBytes 4 (cueId cue s).toNat ++ [0x00, 0x50, 0x00, 0x01, 0x00, 0x00])),
        some (cueId cue s), some s.nowS, some ⟨0x23, cue⟩⟩
      buf := ⟨[], 0⟩ }

/-- 42_cue_generator.md R125 (the reduction is the spec's own, D16): the ticks of a number of seconds are the exact product with
90000 reduced modulo 2^33, they depend only on the number modulo 2^29, and the rule's examples. -/
def Obligations.TicksReduceTheExactProduct : Prop :=
  (∀ sec, (ticks sec).toNat = sec.toNat * 90000 % 2 ^ 33) ∧
  (∀ a b : U32, a.toNat % 2 ^ 29 = b.toNat % 2 ^ 29 → ticks a = ticks b) ∧
  ([1, 600, 50000, 100000, 1700000000].map ticks = [0x000015F90, 0x00337F980, 0x10C388D00, 0x018711A00, 0x116A69000])

/-- 42_cue_generator.md R130 (D17): the output bytes of the three GEN operations do not depend on the pre-roll wires, nor those of
GEN.IN and GEN.CRASH on the duration wires; the record is echoed as presented. -/
def Obligations.UnusedCueFieldsDoNotShow : Prop :=
  ∀ (cue : CueCommand) (pv : Bool) (p : Byte) (av : Bool) (a : U32) (s t u : State),
    (exec (.genOut { cue with preRollValid := pv, preRollDuration := p }) s = .next t → exec (.genOut cue) s = .next u →
      t.rsp.obuf = u.rsp.obuf ∧ t.rsp.echo = some ⟨0x21, { cue with preRollValid := pv, preRollDuration := p }⟩) ∧
    (exec (.genIn { cue with preRollValid := pv, preRollDuration := p, adDurationValid := av, adDuration := a }) s = .next t →
      exec (.genIn cue) s = .next u → t.rsp.obuf = u.rsp.obuf) ∧
    (exec (.genCrash { cue with preRollValid := pv, preRollDuration := p, adDurationValid := av, adDuration := a }) s = .next t →
      exec (.genCrash cue) s = .next u → t.rsp.obuf = u.rsp.obuf)

/-- 42_cue_generator.md R131, 10_state.md R25: a GEN.CRASH section has no splice time (it is 6 bytes shorter than the GEN.IN section
of the same command), and its bytes do not depend on the clock. -/
def Obligations.CrashOmitsTheSpliceTime : Prop :=
  ∀ (cue : CueCommand) (s : State) (now : U32) (bin bcrash : List Byte),
    Outputs (.genIn cue) s bin → Outputs (.genCrash cue) s bcrash →
      bin.length = bcrash.length + 6 ∧ Outputs (.genCrash cue) { s with nowS := now } bcrash

/-- 42_cue_generator.md R121, R123, R124: a GEN operation's bytes are those ENC.SI outputs for the fixed header and the cue type's
command record with the resolved id. -/
def Obligations.GenDelegatesToTheEncoder : Prop :=
  ∀ (cue : CueCommand) (s : State) (b : List Byte), 43 ≤ s.params.obufSize →
    let header : SectionFields := ⟨0xFC, false, false, 0, false, 0, 0, 0xFF, 0xFFF, 5⟩
    let record (out dur imm spec : Bool) (pts break_ : Nat) : SpliceInsert :=
      ⟨cueId cue s, false, out, true, dur, imm, ⟨spec, BitVec.ofNat 33 pts⟩, ⟨true, BitVec.ofNat 33 break_⟩, 1, 0, 0⟩
    let now := s.nowS.toNat * 90000
    let ad := (if cue.adDurationValid then cue.adDuration.toNat else 600) * 90000
    (Outputs (.genOut cue) s b ↔ Outputs (.encSi header (record true true false true now ad) []) s b) ∧
    (Outputs (.genIn cue) s b ↔ Outputs (.encSi header (record false false false true now 0) []) s b) ∧
    (Outputs (.genCrash cue) s b ↔ Outputs (.encSi header (record false false true false 0 0) []) s b)

/-! ## The encoder -/

/-- 40_section_encoder.md R95, 20_memory.md R41, 60_exceptions.md R151, R152: ENC.SI, opcode 0x15. The descriptors are decoded first,
tag kept, BYTES data as they are, HEX data by HexDecode. A malformed descriptor raises MalformedDescriptorData and outputs nothing; a
section longer than `OBUF_SIZE` is refused; every other operand record completes: ERR 0, OLEN and the bytes of the section, every
other response field without a value, the working buffer handed over, nothing else changed. The spec's own choices: the refusal (D23,
log 10), the error's code, effect and order (D5, D6, D24, log 11), the layout (D8 to D11, D31, log 15) and its overflow bits (D12,
log 16), the hex digits (D21, log 22), the fields without value (log 8), the opcode (D2). -/
def Obligations.EncSiOperation : Prop :=
  (∀ o : Operands, decode ⟨0x15, o⟩ = .ok (.encSi o.sect o.insert o.descriptors)) ∧
  (∀ (ds : List Descriptor) (d : List RawDescriptor), decodeDescriptors ds = some d ↔
    List.Forall₂ (fun x y => y.tag = x.tag ∧ (x.form = .bytes → y.data = x.data) ∧
      (x.form = .hex → hexDecode x.data = some y.data)) ds d) ∧
  ∀ (sec : SectionFields) (c : SpliceInsert) (ds : List Descriptor) (s : State),
    (decodeDescriptors ds = none →
      exec (.encSi sec c ds) s = .next { s with rsp := ⟨2, 0, none, none, none, none⟩, buf := ⟨[], 0⟩ }) ∧
    ∀ d, decodeDescriptors ds = some d →
      (22 + bodyLengthSI c + descLength d > s.params.obufSize → exec (.encSi sec c ds) s = .refused .sectionExceedsBuffer) ∧
      (22 + bodyLengthSI c + descLength d ≤ s.params.obufSize →
        exec (.encSi sec c ds) s = .next { s with
          rsp := ⟨0, 22 + bodyLengthSI c + descLength d, some (sectionImage s.params sec (.insert c) d), none, none, none⟩
          buf := ⟨[], 0⟩ })

/-- 40_section_encoder.md R97, R98, 20_memory.md R41, 60_exceptions.md R151, R152: ENC.TS, opcode 0x16, as ENC.SI with the body of a
time signal (1 byte when not specified, 6 when specified, R98). The spec's own choices: the refusal (D23, log 10), the error (D5, D6,
D24, log 11), the layout (D8 to D11, log 15) and its overflow bits (D12, log 16), the hex digits (D21, log 22), the fields without
value (log 8), the opcode (D2). -/
def Obligations.EncTsOperation : Prop :=
  (∀ o : Operands, decode ⟨0x16, o⟩ = .ok (.encTs o.sect o.time o.descriptors)) ∧
  ∀ (sec : SectionFields) (c : TimeSignal) (ds : List Descriptor) (s : State),
    (decodeDescriptors ds = none →
      exec (.encTs sec c ds) s = .next { s with rsp := ⟨2, 0, none, none, none, none⟩, buf := ⟨[], 0⟩ }) ∧
    ∀ d, decodeDescriptors ds = some d →
      (22 + (if c.specified then 6 else 1) + descLength d > s.params.obufSize →
        exec (.encTs sec c ds) s = .refused .sectionExceedsBuffer) ∧
      (22 + (if c.specified then 6 else 1) + descLength d ≤ s.params.obufSize →
        exec (.encTs sec c ds) s = .next { s with
          rsp := ⟨0, 22 + (if c.specified then 6 else 1) + descLength d, some (sectionImage s.params sec (.time c) d), none, none,
            none⟩
          buf := ⟨[], 0⟩ })

/-- 40_section_encoder.md R87 against 30_encoding.md R55 to R70: whatever the working buffer held, the two-pass algorithm leaves
exactly the section the layout describes, its write pointer at the section's length, its memory in canonical form. The layout's bit
positions, byte order and reserved bits (D8 to D11, log 15) and its overflow bits (D12, log 16) are the spec's own choices. -/
def Obligations.TwoPassAlgorithmProducesTheLayout : Prop :=
  ∀ (p : Params) (sec : SectionFields) (cmd : SpliceCommand) (ds : List RawDescriptor) (b : Buffer),
    let r := encodeSection p sec cmd ds b
    r.contents = sectionImage p sec cmd ds ∧ r.wp = 22 + bodyLength cmd + descLength ds ∧ r.mem.wf = true ∧
      ∀ a, r.mem.read a = (sectionImage p sec cmd ds)[a]?

/-- 30_encoding.md R59, R60: `ptsAdjustment` and `tier` of every ENC section: offsets 6 to 9 hold bits 31 to 0 of `ptsAdjustment`,
big-endian, offset 6 the highest; bit 32 is the overflow bit at bit 0 of offset 5; offsets 11 and 12 hold the tier over four 1 bits. The
overflow bit is that of R62 (its parameter is the spec's own, D12). -/
def Obligations.AdjustmentAndTierFields : Prop :=
  ∀ (sec : SectionFields) (cmd : SpliceCommand) (ds : List Descriptor) (s : State) (l : List Byte),
    Outputs (encInstr sec cmd ds) s l →
      fieldAt l 6 4 = sec.ptsAdjustment.toNat % 2 ^ 32 ∧ fieldAt l 6 1 = sec.ptsAdjustment.toNat / 2 ^ 24 % 256 ∧
      fieldAt l 5 1 % 2 = overflowBit s.params sec.ptsAdjustment ∧
      fieldAt l 11 2 = sec.tier.toNat * 16 + 15 ∧ fieldAt l 11 1 = sec.tier.toNat / 16 ∧
      fieldAt l 12 1 = sec.tier.toNat % 16 * 16 + 15

/-- 30_encoding.md R55, R56, R58, R63, 40_section_encoder.md R102 (bit positions at offsets 1 and 5: the spec's own reading, D8;
D20 for the type): the other header bytes of every ENC section; `spliceCommandType` is written as given, whatever the opcode. -/
def Obligations.HeaderBytesHoldTheirFields : Prop :=
  ∀ (sec : SectionFields) (cmd : SpliceCommand) (ds : List Descriptor) (s : State) (l : List Byte),
    Outputs (encInstr sec cmd ds) s l →
      fieldAt l 0 1 = sec.tableId.toNat ∧
      fieldAt l 1 1 = 128 * sec.sectionSyntaxIndicator.toNat + 64 * sec.privateIndicator.toNat + 48 ∧
      fieldAt l 4 1 = sec.protocolVersion.toNat ∧
      fieldAt l 5 1 = 128 * sec.encryptedPacket.toNat + 2 * sec.encryptedAlgorithm.toNat +
        overflowBit s.params sec.ptsAdjustment ∧
      fieldAt l 10 1 = sec.cwIndex.toNat ∧
      fieldAt l 15 1 = sec.spliceCommandType.toNat

/-- 30_encoding.md R57, R61, R63, 40_section_encoder.md R99, R103: the three length fields of every ENC section, from the true byte
counts of its command body and descriptor loop. -/
def Obligations.LengthFieldsCountTheirRegions : Prop :=
  ∀ (sec : SectionFields) (cmd : SpliceCommand) (ds : List Descriptor) (d : List RawDescriptor) (s : State) (l : List Byte),
    Outputs (encInstr sec cmd ds) s l → decodeDescriptors ds = some d →
      l.length = 22 + bodyLength cmd + descLength d ∧
      fieldAt l 2 2 = 0xF000 + (l.length - 3) % 2 ^ 12 ∧
      fieldAt l 13 2 = 0xF000 + bodyLength cmd ∧
      fieldAt l 16 2 = descLength d % 2 ^ 16

/-- 20_memory.md R41 (the capacity is the spec's own, D23): with the default capacity or a smaller one the section length field of
every output section, of ENC and GEN alike, is the number of bytes from offset 3 to its end, nothing truncated. -/
def Obligations.DefaultCapacityNeverTruncates : Prop :=
  ∀ (i : Instr) (s : State) (l : List Byte), s.params.obufSize ≤ 4098 → Outputs i s l →
    l.length ≤ 4098 ∧ fieldAt l 2 2 = 0xF000 + (l.length - 3)

/-- 30_encoding.md R69: the trailer of every ENC section is the big-endian CRC-32 of every byte before it, offsets 0 to
17 + CL + DL, as they stand after the back-patch. -/
def Obligations.TrailerIsTheCrcOfTheRest : Prop :=
  ∀ (sec : SectionFields) (cmd : SpliceCommand) (ds : List Descriptor) (d : List RawDescriptor) (s : State) (l : List Byte),
    Outputs (encInstr sec cmd ds) s l → decodeDescriptors ds = some d →
      l = l.take (18 + bodyLength cmd + descLength d) ++
        beBytes 4 (crc32 (l.take (18 + bodyLength cmd + descLength d))).toNat

/-- 30_encoding.md R66 (byte order of the ids D9, zero bits D10): the body of a splice insert that is not cancelled, byte by byte. -/
def Obligations.SpliceInsertBodyBytes : Prop :=
  ∀ (sec : SectionFields) (c : SpliceInsert) (ds : List Descriptor) (s : State) (l : List Byte),
    Outputs (.encSi sec c ds) s l → c.spliceEventCancelIndicator = false →
      (l.drop 18).take (bodyLengthSI c) =
        beBytes 4 c.spliceEventId.toNat ++ [0x00] ++
        [BitVec.ofNat 8 (128 * c.outOfNetworkIndicator.toNat + 64 * c.programSpliceFlag.toNat + 32 * c.durationFlag.toNat +
          16 * c.spliceImmediateFlag.toNat)] ++
        (if c.programSpliceFlag ∧ ¬ c.spliceImmediateFlag then
          (if c.spliceTime.specified then specifiedTime s.params c.spliceTime.pts.toNat else [0x00]) else []) ++
        (if c.durationFlag then
          [BitVec.ofNat 8 (128 * c.breakDuration.autoReturn.toNat + overflowBit s.params c.breakDuration.duration)] ++
            beBytes 4 (c.breakDuration.duration.toNat % 2 ^ 32) else []) ++
        beBytes 2 c.uniqueProgramId.toNat ++ [c.available, c.expected]

/-- 40_section_encoder.md R100, 30_encoding.md R66: a cancelled splice insert's body is the event id and 0x80, 5 bytes, and no other
field of the command shows: two cancelled records with one id give the same outcome. -/
def Obligations.CancelShortCircuit : Prop :=
  ∀ (sec : SectionFields) (c c' : SpliceInsert) (ds : List Descriptor) (s : State) (l : List Byte),
    c.spliceEventCancelIndicator = true → c'.spliceEventCancelIndicator = true → c'.spliceEventId = c.spliceEventId →
      exec (.encSi sec c' ds) s = exec (.encSi sec c ds) s ∧
      (Outputs (.encSi sec c ds) s l →
        fieldAt l 13 2 = 0xF005 ∧ (l.drop 18).take 5 = beBytes 4 c.spliceEventId.toNat ++ [0x80])

/-- 10_state.md R15, 40_section_encoder.md R96 (a), (b), R89: the wires of a sub-structure that is not present do not show: the
splice time under the immediate flag or without the program splice flag, a time that is not specified, a break duration without its
flag. -/
def Obligations.AbsentSubstructuresDoNotShow : Prop :=
  ∀ (sec : SectionFields) (c : SpliceInsert) (ts : TimeSignal) (ds : List Descriptor) (s : State)
    (t : SpliceTime) (b : BreakDuration) (pts : U33),
    (c.spliceImmediateFlag = true ∨ c.programSpliceFlag = false →
      exec (.encSi sec { c with spliceTime := t } ds) s = exec (.encSi sec c ds) s) ∧
    (c.spliceTime.specified = false →
      exec (.encSi sec { c with spliceTime := ⟨false, pts⟩ } ds) s = exec (.encSi sec c ds) s) ∧
    (c.durationFlag = false → exec (.encSi sec { c with breakDuration := b } ds) s = exec (.encSi sec c ds) s) ∧
    (ts.specified = false → exec (.encTs sec { ts with pts := pts } ds) s = exec (.encTs sec ts ds) s)

/-- 40_section_encoder.md R98: the body of a time signal is its splice time and nothing else: one zero byte when not specified; when
specified six bytes, 0x80, the overflow bit, and bits 31 to 0 of `pts` big-endian (R64, R62; the zero bits D10 and the overflow
parameter D12 are the spec's own). -/
def Obligations.TimeSignalBodyBytes : Prop :=
  ∀ (sec : SectionFields) (c : TimeSignal) (ds : List Descriptor) (d : List RawDescriptor) (s : State) (l : List Byte),
    Outputs (.encTs sec c ds) s l → decodeDescriptors ds = some d →
      let body := (l.drop 18).take (l.length - 22 - descLength d)
      (c.specified = false → body = [0x00]) ∧
      (c.specified = true → body.length = 6 ∧ body = specifiedTime s.params c.pts.toNat)

/-- 30_encoding.md R68: the descriptor loop of every ENC section is, for each descriptor in the order given, its tag, a length byte
holding the data's length modulo 256, and every data byte, and nothing between or after them; it is empty when there are none. -/
def Obligations.DescriptorLoopBytes : Prop :=
  ∀ (sec : SectionFields) (cmd : SpliceCommand) (ds : List Descriptor) (d : List RawDescriptor) (s : State) (l : List Byte),
    Outputs (encInstr sec cmd ds) s l → decodeDescriptors ds = some d →
      (l.drop (18 + bodyLength cmd)).take (l.length - 22 - bodyLength cmd) =
        (d.map fun x => [x.tag, BitVec.ofNat 8 (x.data.length % 256)] ++ x.data).flatten

/-- 30_encoding.md R71: the reserved bits no operand can change, in every section the block outputs, and in the body of every splice
insert and time signal, the break duration at each place it can stand. The zero bits of the splice time's second byte (D10) and the
reserved nibble of the command length (D11) are the spec's own choices (log 15, 93_implementation_defined.md U10). -/
def Obligations.ReservedBitsAreFixed : Prop :=
  (∀ (i : Instr) (s : State) (l : List Byte), Outputs i s l → reservedBitsOk l) ∧
  (∀ (sec : SectionFields) (c : SpliceInsert) (ds : List Descriptor) (s : State) (l : List Byte), Outputs (.encSi sec c ds) s l →
    fieldAt l 22 1 % 128 = 0 ∧
    (c.spliceEventCancelIndicator = false → fieldAt l 23 1 % 16 = 0 ∧
      (c.programSpliceFlag = true → c.spliceImmediateFlag = false → fieldAt l 24 1 % 128 = 0 ∧
        (c.spliceTime.specified = true → fieldAt l 25 1 / 2 = 0)) ∧
      (c.durationFlag = true →
        (c.programSpliceFlag = false → fieldAt l 24 1 / 2 % 64 = 0) ∧
        (c.spliceImmediateFlag = true → fieldAt l 24 1 / 2 % 64 = 0) ∧
        (c.programSpliceFlag = true → c.spliceImmediateFlag = false →
          (c.spliceTime.specified = false → fieldAt l 25 1 / 2 % 64 = 0) ∧
          (c.spliceTime.specified = true → fieldAt l 30 1 / 2 % 64 = 0))))) ∧
  (∀ (sec : SectionFields) (c : TimeSignal) (ds : List Descriptor) (s : State) (l : List Byte), Outputs (.encTs sec c ds) s l →
    fieldAt l 18 1 % 128 = 0 ∧ (c.specified = true → fieldAt l 19 1 / 2 = 0))

/-- 30_encoding.md R62 (the parameter and its default: D12): with `LEGACY_OVF` bit 32 of no 33-bit field shows: clearing it in
`ptsAdjustment`, in the splice time and in the break duration changes nothing an ENC operation does. -/
def Obligations.LegacyOverflowHidesBit32 : Prop :=
  ∀ (sec : SectionFields) (c : SpliceInsert) (ts : TimeSignal) (ds : List Descriptor) (s : State), s.params.legacyOvf = true →
    exec (.encSi { sec with ptsAdjustment := withoutBit32 sec.ptsAdjustment }
      { c with spliceTime := ⟨c.spliceTime.specified, withoutBit32 c.spliceTime.pts⟩,
               breakDuration := ⟨c.breakDuration.autoReturn, withoutBit32 c.breakDuration.duration⟩ } ds) s =
      exec (.encSi sec c ds) s ∧
    exec (.encTs { sec with ptsAdjustment := withoutBit32 sec.ptsAdjustment } ⟨ts.specified, withoutBit32 ts.pts⟩ ds) s =
      exec (.encTs sec ts ds) s

/-- 40_section_encoder.md R101: an ENC operation that completes writes `RSP` (and leaves the working buffer dropped) and nothing
else, `SEQ` and the clock included; and its response depends on its operands and on `LEGACY_OVF` alone: two states that agree on
`LEGACY_OVF` give equal responses. -/
def Obligations.EncodingIsPure : Prop :=
  ∀ (sec : SectionFields) (cmd : SpliceCommand) (ds : List Descriptor) (s t : State), exec (encInstr sec cmd ds) s = .next t →
    t = { s with rsp := t.rsp, buf := ⟨[], 0⟩ } ∧
    ∀ s' t' : State, s'.params.legacyOvf = s.params.legacyOvf → exec (encInstr sec cmd ds) s' = .next t' → t'.rsp = t.rsp

/-- 60_exceptions.md R154, R151, R152, R157, 40_section_encoder.md R92: an ENC operation raises MalformedDescriptorData exactly when a
descriptor in HEX form has odd length or a character that is no hex digit, before any byte is produced (and before the capacity
test); with none, it never does; the other operations never do. The spec's own choices: that lower case is a digit (D21, log 22), the
order of the checks and what the error leaves (D24, D6, log 11), the code 2 (D5). -/
def Obligations.MalformedDescriptorData : Prop :=
  (∀ (sec : SectionFields) (cmd : SpliceCommand) (ds : List Descriptor) (s : State),
    ((∃ d ∈ ds, malformedDescriptor d) →
      exec (encInstr sec cmd ds) s = .next { s with rsp := ⟨2, 0, none, none, none, none⟩, buf := ⟨[], 0⟩ }) ∧
    ((∀ d ∈ ds, ¬ malformedDescriptor d) → ∀ t, exec (encInstr sec cmd ds) s = .next t → t.rsp.err = 0)) ∧
  ∀ (i : Instr) (s t : State), (∀ sec cmd ds, i ≠ encInstr sec cmd ds) → exec i s = .next t → t.rsp.err ≠ 2

/-- 40_section_encoder.md R92 (both letter cases, the empty string: the spec's own reading, D21): HexDecode succeeds exactly on even
length and hex digits throughout; the result is half as long, and byte `i` is 16 times the value of digit `2i` plus that of digit
`2i+1`, '0'..'9' being 0 to 9 and 'A'..'F' and 'a'..'f' both 10 to 15; the rule's examples. -/
def Obligations.HexDecodeIsExact : Prop :=
  (∀ cs, (hexDecode cs).isSome = true ↔ cs.length % 2 = 0 ∧ ∀ c ∈ cs, isHexDigit c) ∧
  (∀ cs out, hexDecode cs = some out → cs.length = 2 * out.length ∧
    ∀ (k : Nat) (h l : Byte), cs[2 * k]? = some h → cs[2 * k + 1]? = some l → ∃ x y, HexDigitValue h x ∧ HexDigitValue l y ∧
      out[k]? = some (BitVec.ofNat 8 (16 * x + y))) ∧
  hexDecode [0x34, 0x33, 0x35, 0x35, 0x34, 0x35, 0x34, 0x39] = some [0x43, 0x55, 0x45, 0x49] ∧
  hexDecode [0x30, 0x61] = some [0x0A] ∧ hexDecode [0x41, 0x42, 0x43] = none ∧ hexDecode [0x30, 0x47] = none

/-! ## The working buffer, the CRC and the views -/

/-- 20_memory.md R33: `Append(v, n)`: for n in 1, 2, 4 and v below 2^(8n), byte `i` of the n bytes from `wp` becomes bits
8(n-i)-1 to 8(n-i-1) of `v`, the most significant first, and `wp` grows by n; every other offset reads as before. -/
def Obligations.AppendWritesBigEndian : Prop :=
  ∀ (b : Buffer) (n v : Nat), n ∈ ([1, 2, 4] : List Nat) → v < 2 ^ (8 * n) →
    (b.append n v).wp = b.wp + n ∧
    (∀ i < n, (b.append n v).mem.read (b.wp + i) = some (BitVec.ofNat 8 (v / 2 ^ (8 * (n - i - 1)) % 256))) ∧
    (∀ a, (a < b.wp ∨ b.wp + n ≤ a) → (b.append n v).mem.read a = b.mem.read a)

/-- 20_memory.md R34, R35: `MemWrite` overwrites the n bytes at its offset with the big-endian image, leaves `wp` and every other
offset, and `MemRead` gives the value back. -/
def Obligations.MemReadAfterMemWrite : Prop :=
  ∀ (b : Buffer) (addr n v : Nat), v < 2 ^ (8 * n) →
    (b.memWrite addr n v).memRead addr n = some v ∧ (b.memWrite addr n v).wp = b.wp ∧
    ∀ a, (a < addr ∨ addr + n ≤ a) → (b.memWrite addr n v).mem.read a = b.mem.read a

/-- 41_crc_and_views.md R111: the algorithm's values the rule gives. -/
def Obligations.CrcWorkedExamples : Prop :=
  crc32 [] = 0x00000000 ∧ crc32 [0x00] = 0xB1F7404B ∧ crc32 [0xFF] = 0x000000FF ∧ crc32 [0xFC] = 0x0D432626 ∧
  crc32 [0x31, 0x32, 0x33, 0x34, 0x35, 0x36, 0x37, 0x38, 0x39] = 0xFC891918

/-- 41_crc_and_views.md R113: the hex view of n bytes has 2n characters, character 2i the upper-case digit of bits 7 to 4 of byte i
and character 2i+1 that of bits 3 to 0; the empty sequence gives the empty string; the example. -/
def Obligations.HexViewDigits : Prop :=
  (∀ b : List Byte, (hexView b).length = 2 * b.length) ∧
  (∀ (b : List Byte) (i : Nat) (x : Byte), b[i]? = some x →
    let digit (n : Nat) : Byte := if n ≤ 9 then BitVec.ofNat 8 (48 + n) else BitVec.ofNat 8 (65 + (n - 10))
    (hexView b)[2 * i]? = some (digit (x.toNat / 16)) ∧ (hexView b)[2 * i + 1]? = some (digit (x.toNat % 16))) ∧
  hexView [] = [] ∧ hexView [0xFC, 0x30, 0xF0, 0x1D] = [0x46, 0x43, 0x33, 0x30, 0x46, 0x30, 0x31, 0x44]

/-- 41_crc_and_views.md R114 (general knowledge, not in the source: PRESUMED, log 14): the Base64 view takes the bytes three at a
time, most significant bit first, as four 6-bit values of the standard alphabet; a final group of one byte gives two characters and
"==", a final group of two bytes three characters and "=", the missing bits zero; nothing else; the rule's examples. -/
def Obligations.Base64ViewCharacters : Prop :=
  let alphabet := "ABCDEFGHIJKLMNOPQRSTUVWXYZabcdefghijklmnopqrstuvwxyz0123456789+/".toList
  let char (v : Nat) : Option Byte := alphabet[v]?.map fun c => BitVec.ofNat 8 c.toNat
  (∀ b : List Byte, (base64View b).length = 4 * ((b.length + 2) / 3)) ∧
  (∀ (b : List Byte) (i : Nat) (x y z : Byte), b[3 * i]? = some x → b[3 * i + 1]? = some y → b[3 * i + 2]? = some z →
    ∀ j < 4, (base64View b)[4 * i + j]? =
      char ((x.toNat * 2 ^ 16 + y.toNat * 2 ^ 8 + z.toNat) / 2 ^ (6 * (3 - j)) % 2 ^ 6)) ∧
  (∀ (b : List Byte) (i : Nat) (x y : Byte), b.length = 3 * i + 2 → b[3 * i]? = some x → b[3 * i + 1]? = some y →
    (∀ j < 3, (base64View b)[4 * i + j]? = char ((x.toNat * 2 ^ 16 + y.toNat * 2 ^ 8) / 2 ^ (6 * (3 - j)) % 2 ^ 6)) ∧
    (base64View b)[4 * i + 3]? = some 0x3D) ∧
  (∀ (b : List Byte) (i : Nat) (x : Byte), b.length = 3 * i + 1 → b[3 * i]? = some x →
    (∀ j < 2, (base64View b)[4 * i + j]? = char (x.toNat * 2 ^ 16 / 2 ^ (6 * (3 - j)) % 2 ^ 6)) ∧
    (base64View b)[4 * i + 2]? = some 0x3D ∧ (base64View b)[4 * i + 3]? = some 0x3D) ∧
  base64View [] = [] ∧ base64View [0xFC] = [0x2F, 0x41, 0x3D, 0x3D] ∧ base64View [0xFC, 0x30] = [0x2F, 0x44, 0x41, 0x3D] ∧
  base64View [0xFC, 0x30, 0xF0] = [0x2F, 0x44, 0x44, 0x77]

/-- 41_crc_and_views.md R115 (the Base64 alphabet is general knowledge, log 14): decoding either view gives the bytes back. -/
def Obligations.ViewsRoundTrip : Prop :=
  ∀ b : List Byte, hexDecode (hexView b) = some b ∧ base64Decode (base64View b) = some b

/-! ## The wrapper -/

/-- 30_encoding.md R54, R75, 42_cue_generator.md R132 (exact match: the spec's own, D32): the three cue type strings, and no other,
present the three GEN opcodes; a call with any other string reaches no operation. -/
def Obligations.CueTypeStringsSelectTheOpcode : Prop :=
  ∀ (t : List Byte) (eventId adDuration preRoll : Option Int) (c : Command),
    expandCall (.generateCue t eventId adDuration preRoll) = .ok c →
      (t = [0x43, 0x55, 0x45, 0x2D, 0x4F, 0x55, 0x54] → decode c = .ok (.genOut (portCue eventId adDuration preRoll))) ∧
      (t = [0x43, 0x55, 0x45, 0x2D, 0x49, 0x4E] → decode c = .ok (.genIn (portCue eventId adDuration preRoll))) ∧
      (t = [0x43, 0x52, 0x41, 0x53, 0x48, 0x2D, 0x4F, 0x55, 0x54] →
        decode c = .ok (.genCrash (portCue eventId adDuration preRoll))) ∧
      (t ∉ [[0x43, 0x55, 0x45, 0x2D, 0x4F, 0x55, 0x54], [0x43, 0x55, 0x45, 0x2D, 0x49, 0x4E],
          [0x43, 0x52, 0x41, 0x53, 0x48, 0x2D, 0x4F, 0x55, 0x54]] → ∀ i, decode c ≠ .ok i)

/-- 10_state.md R29, 30_encoding.md R74, R75, 93_implementation_defined.md U2, U11: every call the wrapper accepts is presented as the
command of its kind, each port holding the call's number modulo 2^w (so the number is not negative), each flag and each descriptor's
form and data as given, each `Valid` bit the presence of its number; and a call is accepted when none of its numbers is negative and
its optional parts fit its flags, and refused otherwise. At a 33-bit port the low 32 bits are the number's and the overflow bit its
bit 32. That a cancelled record's optional parts always fit is DEDUCED (log 13); which refusal is answered is left open here. -/
def Obligations.WrapperPresentsLowBits : Prop :=
  (∀ (call : SourceCall) (c : Command), expandCall call = .ok c → PresentsCall c call) ∧
  (∀ call : SourceCall, (∃ c, expandCall call = .ok c) ↔ call.nonNegative = true ∧ call.consistent = true) ∧
  (∀ (v : U33) (n : Int), Presents v n → ((low32 v).toNat : Int) = n % 2 ^ 32 ∧
    ∀ p : Params, p.legacyOvf = false → (ovf p v = true ↔ n / 2 ^ 32 % 2 = 1))

/-! ## The host's side of the response, and runs -/

/-- 10_state.md R22, R24, R27, 60_exceptions.md R151 (the latch and which operation defines which field: the spec's own D5, D30; log
8): the host reads ERR and OLEN always, output byte `j` exactly when `j` is below OLEN, EVID exactly after GEN and SEQ.NEXT, TSTAMP
and ECHO exactly after GEN; there are output bytes exactly after GEN and after an ENC that raised no error. A read that answers gives
the field's value and every other read is a fault of the host; after a reset and after an error every read but ERR's and OLEN's is. -/
def Obligations.HostReadsOnlyDefinedFields : Prop :=
  (∀ (i : Instr) (s t : State), exec i s = .next t →
    (∀ j, (∃ b, t.hostObuf j = .ok b) ↔ j < t.hostOlen) ∧
    (0 < t.hostOlen ↔ isGen i = true ∨ (isEnc i = true ∧ t.hostErr = 0)) ∧
    ((∃ v, t.hostEvid = .ok v) ↔ isGen i = true ∨ i = .seqNext) ∧
    ((∃ v, t.hostTstamp = .ok v) ↔ isGen i = true) ∧ ((∃ v, t.hostEcho = .ok v) ↔ isGen i = true)) ∧
  (∀ s : State, s.hostErr = s.rsp.err ∧ s.hostOlen = s.rsp.olen ∧
    (∀ j b, s.hostObuf j = .ok b ↔ j < s.rsp.olen ∧ ∃ l, s.rsp.obuf = some l ∧ l[j]? = some b) ∧
    (∀ v, s.hostEvid = .ok v ↔ s.rsp.evid = some v) ∧ (∀ v, s.hostTstamp = .ok v ↔ s.rsp.tstamp = some v) ∧
    ∀ v, s.hostEcho = .ok v ↔ s.rsp.echo = some v) ∧
  (∀ p, (State.resetWith p).hostErr = 0 ∧ (State.resetWith p).hostOlen = 0 ∧ (State.resetWith p).NothingToRead) ∧
  ∀ (s : State) (e : ErrorKind), (s.raiseError e).hostErr ≠ 0 ∧ (s.raiseError e).hostOlen = 0 ∧ (s.raiseError e).NothingToRead

/-- 70_reset_and_hazards.md R181 (the form of a run: the spec's own, D1; event list and idle step: the model's, log 2, log 6): in every
run that meets no refusal there is one response for each command taken and none for a reset or an idle step; with no reset among the
events the last response is what the latch holds, and the latch is as it was if no command was taken; steps after the last event add
nothing. A run of commands from a start state leaves `SEQ`, the last response and all responses so: it is its first command's step
and then the run of the others, and it leaves nothing when that step is refused. -/
def Obligations.RunLeavesSeqAndResponses : Prop :=
  (∀ (k : Nat) (s t : State), RunsTo k s t →
    (responses k s).length = ((s.events.take k).filter Event.isCommand).length ∧
    ((∀ e ∈ s.events.take k, e.isCommand = true) → t.rsp = (responses k s).getLast?.getD s.rsp) ∧
    (s.events.length ≤ k → ∀ n, RunsTo (k + n) s t ∧ responses (k + n) s = responses k s)) ∧
  (∀ (cs : List (Command × U32)) (s t : State), RunsTo cs.length (s.present cs) t →
    ∃ l, runCommands cs s = some l ∧ l.seq = t.seq ∧ l.responses.length = cs.length ∧ l.last = l.responses.getLast? ∧
      (cs ≠ [] → l.last = some t.rsp)) ∧
  ∀ (c : Command) (now : U32) (cs : List (Command × U32)) (s : State),
    (∀ t, step (s.present ((c, now) :: cs)) = .next t → runCommands ((c, now) :: cs) s =
      (runCommands cs t).map fun l => ⟨l.seq, some (l.last.getD t.rsp), t.rsp :: l.responses⟩) ∧
    ∀ r, step (s.present ((c, now) :: cs)) = .refused r → runCommands ((c, now) :: cs) s = none

/-! ## Frames -/

/-- 43_event_id_sequence.md R141, R144, 20_memory.md R31: what SEQ.NEXT and SEQ.RESET leave unchanged: the straps, the inputs, every
byte of the working buffer and its pointer; the response holds no bytes, no stamp and no echo. (`SEQ` and `RSP` are written.) -/
def Obligations.SequencerOperationsFrame : Prop :=
  ∀ (i : Instr) (s t : State), (i = .seqNext ∨ ∃ seed, i = .seqReset seed) → exec i s = .next t →
    t.params = s.params ∧ t.events = s.events ∧ t.nowS = s.nowS ∧ t.buf.wp = s.buf.wp ∧
    (∀ a, t.buf.mem.read a = s.buf.mem.read a) ∧
    t.rsp.err = 0 ∧ t.rsp.olen = 0 ∧ t.rsp.obuf = none ∧ t.rsp.tstamp = none ∧ t.rsp.echo = none

/-- 40_section_encoder.md R95, R97, R101, 20_memory.md R31, R48: what an ENC operation that answers a next state, with bytes or with
an error, leaves: `SEQ`, the straps and the inputs unchanged, no byte in the working buffer, no EVID, TSTAMP or ECHO. -/
def Obligations.EncoderOperationsFrame : Prop :=
  ∀ (sec : SectionFields) (cmd : SpliceCommand) (ds : List Descriptor) (s t : State), exec (encInstr sec cmd ds) s = .next t →
    t.seq = s.seq ∧ t.params = s.params ∧ t.events = s.events ∧ t.nowS = s.nowS ∧
    (∀ a, t.buf.mem.read a = none) ∧ t.buf.wp = 0 ∧
    t.rsp.evid = none ∧ t.rsp.tstamp = none ∧ t.rsp.echo = none

/-- 42_cue_generator.md R126 to R129, 20_memory.md R31, R48: what a GEN operation leaves: the straps and the inputs unchanged, `SEQ`
unchanged when an id is supplied, no byte in the working buffer. -/
def Obligations.DispatcherOperationsFrame : Prop :=
  ∀ (cue : CueCommand) (i : Instr) (s t : State), (i = .genOut cue ∨ i = .genIn cue ∨ i = .genCrash cue) → exec i s = .next t →
    t.params = s.params ∧ t.events = s.events ∧ t.nowS = s.nowS ∧ (cue.eventIdValid = true → t.seq = s.seq) ∧
    (∀ a, t.buf.mem.read a = none) ∧ t.buf.wp = 0

/-- 10_state.md R22, R23, 20_memory.md R48, 60_exceptions.md R160: no operation's result depends on the response latch or on what
the working buffer held, so an operation after an error does what it would have done without it. -/
def Obligations.NoResultDependsOnTheLastResponse : Prop :=
  ∀ (i : Instr) (s : State) (r : Response) (b : Buffer),
    exec i { s with rsp := r } = exec i s ∧
    (∀ t t', exec i { s with buf := b } = .next t → exec i s = .next t' → t.rsp = t'.rsp ∧ t.seq = t'.seq) ∧
    ∀ e, s.buf = ⟨[], 0⟩ → exec i (s.raiseError e) = exec i s

/-! ## The whole machine -/

/-- 10_state.md R24, R30, 70_reset_and_hazards.md R172: no step changes the straps, a reset included. The rest is the model's choice: the
straps are fields of State (DESIGN CHOICE, log 1), a step takes the first event of the list (log 2), none when there is none (log 6),
and a reset keeps the later ones (log 7). -/
def Obligations.NoStepChangesTheStraps : Prop :=
  ∀ s t : State, step s = .next t → t.params = s.params ∧ t.events = s.events.tail

/-- 60_exceptions.md R151, R168, 20_memory.md R41: no step faults, since both errors are responses; a step is refused only for an ENC
command whose descriptors are all well formed and whose section exceeds `OBUF_SIZE`. -/
def Obligations.OnlyCapacityStopsAStep : Prop :=
  ∀ s : State, (∀ f, step s ≠ .fault f) ∧
    ∀ r, step s = .refused r → r = .sectionExceedsBuffer ∧
      ∃ c now rest sec cmd ds d, s.events = .command c now :: rest ∧ decode c = .ok (encInstr sec cmd ds) ∧
        decodeDescriptors ds = some d ∧ s.params.obufSize < 22 + bodyLength cmd + descLength d

/-- The invariant `BlockInv` (00_scope.md R6; 10_state.md R22, R24, R26; 60_exceptions.md R151, R152; 30_encoding.md R71;
40_section_encoder.md R99; 41_crc_and_views.md R112) holds after reset, under any straps with a capacity of at least 43. -/
def Obligations.InvariantHoldsAtReset : Prop := BlockInv State.reset ∧ ∀ p : Params, p.wellFormed = true → BlockInv (State.resetWith p)

/-- Every step keeps `BlockInv`: between operations the response latch is always one the spec's operations leave (code 3 never, OLEN the
count of the output bytes and at most OBUF_SIZE, fields defined together, after an error nothing), every section ever output has its
three length fields right, its reserved bits fixed and its trailer the CRC of the rest, and the working buffer is empty. -/
def Obligations.StepKeepsInvariant : Prop := ∀ s t : State, BlockInv s → step s = .next t → BlockInv t
end

