-- ==== Sys2Proof/Laws/Memory.lean ====
section
/-! SUPPORT. The working buffer's operations, each with the one lemma that says all it does. A buffer that an operation builds is
`Buffer.ofBytes l`, its cells the offsets 0 .. wp-1 in order; every primitive takes one such buffer to another. -/

namespace Sys2Proof.Machine

/-! ## Big-endian images -/

@[simp] theorem beBytes_length (n v : Nat) : (beBytes n v).length = n := by
  induction n with
  | zero => rfl
  | succ n ih => simp [beBytes, ih]

theorem beBytes_one (v : Nat) : beBytes 1 v = [BitVec.ofNat 8 v] := by simp [beBytes]

@[simp] theorem beBytes_byte (b : Byte) : beBytes 1 b.toNat = [b] := by simp [beBytes]

theorem beBytes_two (v : Nat) : beBytes 2 v = [BitVec.ofNat 8 (v >>> 8), BitVec.ofNat 8 v] := by simp [beBytes]

/-- Reading a big-endian image back gives the value's low bytes. -/
theorem beValue_beBytes (n v : Nat) : beValue (beBytes n v) = v % 256 ^ n := by
  induction n with
  | zero => simp [beBytes, beValue, Nat.mod_one]
  | succ n ih =>
    have h : v >>> (8 * n) = v / 256 ^ n := by
      rw [Nat.shiftRight_eq_div_pow, Nat.pow_mul]
    simp only [beBytes, beValue, ih, beBytes_length, BitVec.toNat_ofNat, h]
    rw [show 256 ^ (n + 1) = 256 ^ n * 256 from rfl, Nat.mod_mul, Nat.add_comm, Nat.mul_comm]

/-- The image of a value below the field's bound reads back as the value. -/
theorem beValue_beBytes_of_lt {n v : Nat} (h : v < 256 ^ n) : beValue (beBytes n v) = v := by
  rw [beValue_beBytes, Nat.mod_eq_of_lt h]

/-! ## Memory in general -/

/-- Every offset of a memory is above `a`. -/
def Memory.above (a : Nat) (m : Memory) : Prop := ∀ x ∈ m, a < x.1

/-- The canonical form, head by head. -/
theorem Memory.wf_cons {x : Host.Cell} {t : Memory} : Memory.wf (x :: t) = true ↔ Memory.above x.1 t ∧ Memory.wf t = true := by
  induction t generalizing x with
  | nil => simp [Memory.wf, Memory.above]
  | cons y t ih =>
    simp only [Memory.wf, Bool.and_eq_true, decide_eq_true_eq, ih (x := y), Memory.above, List.mem_cons, forall_eq_or_imp]
    constructor
    · rintro ⟨hxy, hy, ht⟩
      exact ⟨⟨hxy, fun z hz => lt_trans hxy (hy z hz)⟩, hy, ht⟩
    · rintro ⟨⟨hxy, _⟩, hy, ht⟩
      exact ⟨hxy, hy, ht⟩

/-- Where a cell of a written memory comes from. -/
theorem Memory.mem_write {m : Memory} {a : Nat} {b : Byte} {x : Host.Cell} (h : x ∈ m.write a b) : x = (a, b) ∨ x ∈ m := by
  induction m with
  | nil => simpa [Memory.write] using h
  | cons y t ih =>
    simp only [Memory.write] at h
    split at h
    · simpa using h
    · split at h
      · rcases List.mem_cons.1 h with h | h
        · exact .inl h
        · exact .inr (List.mem_cons_of_mem _ h)
      · rcases List.mem_cons.1 h with h | h
        · exact .inr (h ▸ List.mem_cons_self)
        · exact (ih h).imp id (List.mem_cons_of_mem _)

/-- A write keeps the canonical form. -/
theorem Memory.write_wf {m : Memory} (h : m.wf = true) (a : Nat) (b : Byte) : (m.write a b).wf = true := by
  induction m with
  | nil => rfl
  | cons y t ih =>
    obtain ⟨hy, ht⟩ := Memory.wf_cons.1 h
    simp only [Memory.write]
    split
    · rename_i hlt
      exact Memory.wf_cons.2 ⟨fun z hz => (List.mem_cons.1 hz).elim (fun e => e ▸ hlt) (fun hz => lt_trans hlt (hy z hz)), h⟩
    · split
      · rename_i _ heq
        exact Memory.wf_cons.2 ⟨heq ▸ hy, ht⟩
      · rename_i hlt hne
        refine Memory.wf_cons.2 ⟨fun z hz => ?_, ih ht⟩
        rcases Memory.mem_write hz with rfl | hz
        · exact lt_of_le_of_ne (Nat.le_of_not_lt hlt) (Ne.symm hne)
        · exact hy z hz

/-- So does writing a byte string. -/
theorem Memory.writeBytes_wf {m : Memory} (h : m.wf = true) (a : Nat) (bs : List Byte) : (m.writeBytes a bs).wf = true := by
  induction bs generalizing m a with
  | nil => exact h
  | cons b t ih => exact ih (Memory.write_wf h a b) (a + 1)

/-- An offset below every listed one holds no byte. -/
theorem Memory.read_of_above {m : Memory} {a : Nat} (h : m.above a) : m.read a = none := by
  induction m with
  | nil => rfl
  | cons y t ih =>
    have hy : y.1 ≠ a := (h y List.mem_cons_self).ne'
    simp [Memory.read, hy, ih fun z hz => h z (List.mem_cons_of_mem _ hz)]

/-- A read after a write to the same offset gives the byte written. -/
@[simp] theorem Memory.read_write_same (m : Memory) (a : Nat) (b : Byte) : (m.write a b).read a = some b := by
  induction m with
  | nil => simp [Memory.write, Memory.read]
  | cons y t ih =>
    simp only [Memory.write]
    split
    · simp [Memory.read]
    · split
      · simp [Memory.read]
      · rename_i hne
        simp [Memory.read, Ne.symm hne, ih]

/-- A write leaves every other offset alone. -/
theorem Memory.read_write_other {m : Memory} {a c : Nat} (b : Byte) (hne : c ≠ a) : (m.write a b).read c = m.read c := by
  induction m with
  | nil => simp [Memory.write, Memory.read, hne.symm]
  | cons y t ih =>
    simp only [Memory.write]
    split
    · simp [Memory.read, hne.symm]
    · split
      · rename_i heq
        simp [Memory.read, hne.symm, ← heq]
      · simp [Memory.read, ih]

/-! ## Buffers that hold the bytes below `wp` -/

/-- The cells of a byte string laid out from offset `a`. -/
def cells : Nat → List Byte → Memory
  | _, []     => []
  | a, b :: t => (a, b) :: cells (a + 1) t

/-- The buffer that holds exactly the bytes `l`. -/
def Buffer.ofBytes (l : List Byte) : Buffer := ⟨cells 0 l, l.length⟩

theorem cells_append_write (l : List Byte) (a : Nat) (b : Byte) : (cells a l).write (a + l.length) b = cells a (l ++ [b]) := by
  induction l generalizing a with
  | nil => simp [cells, Memory.write]
  | cons x t ih =>
    have h := ih (a + 1)
    rw [show a + 1 + t.length = a + (t.length + 1) by omega] at h
    simp [cells, Memory.write, h]

theorem cells_set_write {l : List Byte} {i : Nat} (hi : i < l.length) (a : Nat) (b : Byte) :
    (cells a l).write (a + i) b = cells a (l.set i b) := by
  induction l generalizing a i with
  | nil => simp at hi
  | cons x t ih =>
    cases i with
    | zero => simp [cells, Memory.write]
    | succ i =>
      have h := ih (Nat.lt_of_succ_lt_succ hi) (a + 1)
      rw [show a + 1 + i = a + (i + 1) by omega] at h
      simp [cells, Memory.write, h]

theorem cells_append_writeBytes (bs l : List Byte) (a : Nat) :
    (cells a l).writeBytes (a + l.length) bs = cells a (l ++ bs) := by
  induction bs generalizing l with
  | nil => simp [Memory.writeBytes]
  | cons b t ih =>
    have h := ih (l ++ [b])
    simp only [List.length_append, List.length_cons, List.length_nil, ← Nat.add_assoc, Nat.zero_add, List.append_assoc,
      List.cons_append, List.nil_append] at h
    simp [Memory.writeBytes, cells_append_write, h]

/-- The bytes of `l` with `bs` over those at offsets `i` and up. -/
def overwrite (l : List Byte) : Nat → List Byte → List Byte
  | _, []     => l
  | i, b :: t => overwrite (l.set i b) (i + 1) t

@[simp] theorem overwrite_length (l : List Byte) (i : Nat) (bs : List Byte) : (overwrite l i bs).length = l.length := by
  induction bs generalizing l i with
  | nil => rfl
  | cons b t ih => simp [overwrite, ih]

theorem cells_overwrite {bs l : List Byte} {i : Nat} (h : i + bs.length ≤ l.length) (a : Nat) :
    (cells a l).writeBytes (a + i) bs = cells a (overwrite l i bs) := by
  induction bs generalizing l i with
  | nil => rfl
  | cons b t ih =>
    simp only [List.length_cons] at h
    rw [Memory.writeBytes, cells_set_write (by omega), show a + i + 1 = a + (i + 1) by omega,
      ih (l := l.set i b) (i := i + 1) (by simpa using by omega)]
    rfl

@[simp] theorem cells_bytes (a : Nat) (l : List Byte) : (cells a l).map (·.2) = l := by
  induction l generalizing a with
  | nil => rfl
  | cons b t ih => simp [cells, ih]

theorem cells_above (a : Nat) (l : List Byte) : ∀ x ∈ cells a l, a ≤ x.1 := by
  induction l generalizing a with
  | nil => simp [cells]
  | cons b t ih =>
    simp only [cells, List.mem_cons, forall_eq_or_imp, Nat.le_refl, true_and]
    exact fun x hx => Nat.le_of_succ_le (ih (a + 1) x hx)

/-- Such a buffer's memory is in canonical form. -/
theorem cells_wf (a : Nat) (l : List Byte) : (cells a l).wf = true := by
  induction l generalizing a with
  | nil => rfl
  | cons b t ih => exact Memory.wf_cons.2 ⟨cells_above (a + 1) t, ih (a + 1)⟩

/-- Reading such a buffer at an offset gives the byte there, and none from `wp` up. -/
theorem cells_read (a : Nat) (l : List Byte) (i : Nat) : (cells a l).read (a + i) = l[i]? := by
  induction l generalizing a i with
  | nil => rfl
  | cons b t ih =>
    cases i with
    | zero => simp [cells, Memory.read]
    | succ i =>
      have h := ih (a + 1) i
      rw [show a + 1 + i = a + (i + 1) by omega] at h
      simp [cells, Memory.read, h]

@[simp] theorem Buffer.empty_eq_ofBytes : Buffer.empty = Buffer.ofBytes [] := rfl
@[simp] theorem Buffer.clear_eq (b : Buffer) : b.clear = Buffer.ofBytes [] := rfl
@[simp] theorem Buffer.ofBytes_wp (l : List Byte) : (Buffer.ofBytes l).wp = l.length := rfl
@[simp] theorem Buffer.ofBytes_contents (l : List Byte) : (Buffer.ofBytes l).contents = l := cells_bytes 0 l
theorem Buffer.ofBytes_wf (l : List Byte) : (Buffer.ofBytes l).mem.wf = true := cells_wf 0 l
theorem Buffer.ofBytes_read (l : List Byte) (i : Nat) : (Buffer.ofBytes l).mem.read i = l[i]? := by
  rw [← cells_read 0 l i, Nat.zero_add]; rfl

/-- 20_memory.md R33. -/
@[simp] theorem Buffer.append_ofBytes (n v : Nat) (l : List Byte) :
    (Buffer.ofBytes l).append n v = Buffer.ofBytes (l ++ beBytes n v) := by
  have h := cells_append_writeBytes (beBytes n v) l 0
  rw [Nat.zero_add] at h
  simp [Buffer.append, Buffer.ofBytes, h]

/-- 00_scope.md R10, `AppendBytes`. -/
@[simp] theorem Buffer.appendBytes_ofBytes (bs l : List Byte) :
    (Buffer.ofBytes l).appendBytes bs = Buffer.ofBytes (l ++ bs) := by
  induction bs generalizing l with
  | nil => simp [Buffer.appendBytes]
  | cons b t ih => simp [Buffer.appendBytes, ih]

/-- 20_memory.md R34, under the rule's premise. -/
theorem Buffer.memWrite_ofBytes {addr n : Nat} {l : List Byte} (h : addr + n ≤ l.length) (v : Nat) :
    (Buffer.ofBytes l).memWrite addr n v = Buffer.ofBytes (overwrite l addr (beBytes n v)) := by
  have h := cells_overwrite (bs := beBytes n v) (l := l) (i := addr) (by simpa using h) 0
  rw [Nat.zero_add] at h
  simp [Buffer.memWrite, Buffer.ofBytes, h]

end Sys2Proof.Machine
end

