-- ==== Sys2Proof/Laws/Encoder.lean ====
section
/-! SUPPORT. Each procedure of the encoder, by the one lemma that says which bytes it appends to a buffer (30_encoding.md R64 to
R68), and the byte counts of 40_section_encoder.md R96, R98. -/

namespace Sys2Proof.Machine

theorem boolByte_shift_seven (b : Bool) : boolByte b <<< 7 = if b then 0x80 else 0x00 := by cases b <;> rfl

/-- 40_section_encoder.md R89. -/
@[simp] theorem encodeSpliceTime_ofBytes (p : Params) (sp : Bool) (pts : U33) (l : List Byte) :
    encodeSpliceTime p sp pts (Buffer.ofBytes l) = Buffer.ofBytes (l ++ spliceTimeImage p sp pts) := by
  cases sp <;> simp [encodeSpliceTime, spliceTimeImage, boolByte_shift_seven, beBytes_one]

/-- 40_section_encoder.md R90. -/
@[simp] theorem encodeBreakDuration_ofBytes (p : Params) (ar : Bool) (d : U33) (l : List Byte) :
    encodeBreakDuration p ar d (Buffer.ofBytes l) = Buffer.ofBytes (l ++ breakDurationImage p ar d) := by
  simp [encodeBreakDuration, breakDurationImage]

/-- 40_section_encoder.md R96. -/
@[simp] theorem encodeSpliceInsert_ofBytes (p : Params) (c : SpliceInsert) (l : List Byte) :
    encodeSpliceInsert p c (Buffer.ofBytes l) = Buffer.ofBytes (l ++ spliceInsertImage p c) := by
  unfold encodeSpliceInsert spliceInsertImage
  cases hc : c.spliceEventCancelIndicator <;> cases ht : spliceTimePresent c <;> cases hd : c.durationFlag <;>
    simp [cancelByte, boolByte_shift_seven, hc, beBytes_one]

/-- 40_section_encoder.md R96, R98. -/
@[simp] theorem encodeCommand_ofBytes (p : Params) (cmd : SpliceCommand) (l : List Byte) :
    encodeCommand p cmd (Buffer.ofBytes l) = Buffer.ofBytes (l ++ bodyImage p cmd) := by
  cases cmd <;> simp [encodeCommand, encodeTimeSignal, bodyImage]

theorem descriptor_length_byte (n : Nat) : beBytes 1 (n % 2 ^ 8) = [BitVec.ofNat 8 n] := by
  simp [beBytes_one, ← BitVec.toNat_inj]

/-- 40_section_encoder.md R91. -/
@[simp] theorem encodeDescriptors_ofBytes (ds : List RawDescriptor) (l : List Byte) :
    encodeDescriptors ds (Buffer.ofBytes l) = Buffer.ofBytes (l ++ loopImage ds) := by
  induction ds generalizing l with
  | nil => simp [encodeDescriptors, loopImage]
  | cons d t ih =>
    simp only [encodeDescriptors, Buffer.append_ofBytes, Buffer.appendBytes_ofBytes, ih, descriptor_length_byte, beBytes_byte]
    simp [loopImage, descriptorImage]

/-- 40_section_encoder.md R88: the header with its placeholders. -/
def headerPlaceholders (p : Params) (s : SectionFields) : List Byte :=
  [s.tableId, flagsByte s, 0x00, 0x00, s.protocolVersion, encryptionByte p s] ++ beBytes 4 (low32 s.ptsAdjustment).toNat ++
    [s.cwIndex] ++ beBytes 2 (tierWord s).toNat ++ [0xF0, 0x00, s.spliceCommandType, 0x00, 0x00]

@[simp] theorem headerPlaceholders_length (p : Params) (s : SectionFields) : (headerPlaceholders p s).length = 18 := by
  simp [headerPlaceholders]

/-- 40_section_encoder.md R88. -/
theorem writeHeader_ofBytes (p : Params) (s : SectionFields) (l : List Byte) :
    writeHeader p s (Buffer.ofBytes l) = Buffer.ofBytes (l ++ headerPlaceholders p s) := by
  have h0 : beBytes 2 0x0000 = [0x00, 0x00] := rfl
  have h1 : beBytes 2 0xF000 = [0xF0, 0x00] := rfl
  simp [writeHeader, headerPlaceholders, h0, h1]

@[simp] theorem headerImage_length (p : Params) (s : SectionFields) (sl cl dl : Nat) : (headerImage p s sl cl dl).length = 18 := by
  simp [headerImage]

/-! ## Byte counts -/

theorem spliceTimeImage_length (p : Params) (sp : Bool) (pts : U33) : (spliceTimeImage p sp pts).length = spliceTimeLength sp := by
  cases sp <;> simp [spliceTimeImage, spliceTimeLength]

@[simp] theorem breakDurationImage_length (p : Params) (ar : Bool) (d : U33) : (breakDurationImage p ar d).length = 5 := by
  simp [breakDurationImage]

/-- 40_section_encoder.md R96, R98: the count the capacity test uses is the count of the bytes produced. -/
@[simp] theorem bodyImage_length (p : Params) (cmd : SpliceCommand) : (bodyImage p cmd).length = bodyLength cmd := by
  cases cmd with
  | time c => exact spliceTimeImage_length p c.specified c.pts
  | insert c =>
    simp only [bodyImage, spliceInsertImage, bodyLength, bodyLengthSI]
    cases c.spliceEventCancelIndicator <;> cases spliceTimePresent c <;> cases c.durationFlag <;>
      simp [spliceTimeImage_length] <;> omega

/-- 40_section_encoder.md R95, `DescLength`. -/
@[simp] theorem loopImage_length (ds : List RawDescriptor) : (loopImage ds).length = descLength ds := by
  induction ds with
  | nil => rfl
  | cons d t ih =>
    have h : loopImage (d :: t) = descriptorImage d ++ loopImage t := by simp [loopImage]
    rw [h, List.length_append, ih]
    simp [descriptorImage, descLength]
    omega

/-! ## The operation's checks -/

/-- 40_section_encoder.md R95, 60_exceptions.md R157: everything an ENC operation can do. -/
theorem encodeOperation_cases (s : SectionFields) (cmd : SpliceCommand) (ds : List Descriptor) (st : State) :
    (decodeDescriptors ds = none ∧ encodeOperation s cmd ds st = .next (st.raiseError .malformedDescriptorData)) ∨
    (∃ d, decodeDescriptors ds = some d ∧ st.params.obufSize < 22 + bodyLength cmd + descLength d ∧
      encodeOperation s cmd ds st = .refused .sectionExceedsBuffer) ∨
    (∃ d b, decodeDescriptors ds = some d ∧ 22 + bodyLength cmd + descLength d ≤ st.params.obufSize ∧
      b = encodeSection st.params s cmd d st.buf ∧
      encodeOperation s cmd ds st = .next ((st.respond ⟨errNone, b.wp, some b.contents, none, none, none⟩).dropBuffer)) := by
  unfold encodeOperation
  cases h : decodeDescriptors ds with
  | none => exact .inl ⟨rfl, rfl⟩
  | some d =>
    by_cases hc : st.params.obufSize < 22 + bodyLength cmd + descLength d
    · exact .inr (.inl ⟨d, rfl, hc, by simp [hc]⟩)
    · exact .inr (.inr ⟨d, _, rfl, Nat.le_of_not_lt hc, rfl, by simp [hc]⟩)

/-- 60_exceptions.md R154: a descriptor in `BYTES` form cannot be malformed. -/
@[simp] theorem decodeDescriptor_bytes (t : Byte) (l : List Byte) : decodeDescriptor ⟨t, .bytes, l⟩ = some ⟨t, l⟩ := rfl

@[simp] theorem decodeDescriptor_hex (t : Byte) (l : List Byte) :
    decodeDescriptor ⟨t, .hex, l⟩ = (hexDecode l).map (RawDescriptor.mk t) := rfl

end Sys2Proof.Machine
end

