-- ==== Sys2Proof/Laws/State.lean ====
section
/-! SUPPORT. One lemma per field of `State` for each shared update, true by `rfl`, so that no proof unfolds a record update. -/

namespace Sys2Proof.Machine

section respond
variable (r : Response) (s : State)
@[simp] theorem State.respond_seq : (s.respond r).seq = s.seq := rfl
@[simp] theorem State.respond_rsp : (s.respond r).rsp = r := rfl
@[simp] theorem State.respond_buf : (s.respond r).buf = s.buf := rfl
@[simp] theorem State.respond_params : (s.respond r).params = s.params := rfl
@[simp] theorem State.respond_events : (s.respond r).events = s.events := rfl
@[simp] theorem State.respond_nowS : (s.respond r).nowS = s.nowS := rfl
end respond

section dropBuffer
variable (s : State)
@[simp] theorem State.dropBuffer_seq : s.dropBuffer.seq = s.seq := rfl
@[simp] theorem State.dropBuffer_rsp : s.dropBuffer.rsp = s.rsp := rfl
@[simp] theorem State.dropBuffer_buf : s.dropBuffer.buf = Buffer.empty := rfl
@[simp] theorem State.dropBuffer_params : s.dropBuffer.params = s.params := rfl
@[simp] theorem State.dropBuffer_events : s.dropBuffer.events = s.events := rfl
@[simp] theorem State.dropBuffer_nowS : s.dropBuffer.nowS = s.nowS := rfl
end dropBuffer

section raiseError
variable (e : ErrorKind) (s : State)
@[simp] theorem State.raiseError_seq : (s.raiseError e).seq = s.seq := rfl
@[simp] theorem State.raiseError_rsp : (s.raiseError e).rsp = ⟨errorCode e, 0, none, none, none, none⟩ := rfl
@[simp] theorem State.raiseError_buf : (s.raiseError e).buf = Buffer.empty := rfl
@[simp] theorem State.raiseError_params : (s.raiseError e).params = s.params := rfl
@[simp] theorem State.raiseError_events : (s.raiseError e).events = s.events := rfl
@[simp] theorem State.raiseError_nowS : (s.raiseError e).nowS = s.nowS := rfl
end raiseError

section drawId
variable (s : State)
@[simp] theorem State.drawId_id : s.drawId.1 = s.seq := rfl
@[simp] theorem State.drawId_seq : s.drawId.2.seq = s.seq + 1 := rfl
@[simp] theorem State.drawId_rsp : s.drawId.2.rsp = s.rsp := rfl
@[simp] theorem State.drawId_buf : s.drawId.2.buf = s.buf := rfl
@[simp] theorem State.drawId_params : s.drawId.2.params = s.params := rfl
@[simp] theorem State.drawId_events : s.drawId.2.events = s.events := rfl
@[simp] theorem State.drawId_nowS : s.drawId.2.nowS = s.nowS := rfl
end drawId

section resolveEventId
variable (op : CueCommand) (s : State)
/-- 42_cue_generator.md R122: the id, supplied or drawn. -/
theorem State.resolveEventId_id : (s.resolveEventId op).1 = if op.eventIdValid then op.eventId else s.seq := by
  unfold State.resolveEventId; split <;> rfl
/-- 42_cue_generator.md R122: `SEQ` moves only when the id is drawn. -/
theorem State.resolveEventId_seq : (s.resolveEventId op).2.seq = if op.eventIdValid then s.seq else s.seq + 1 := by
  unfold State.resolveEventId; split <;> rfl
@[simp] theorem State.resolveEventId_rsp : (s.resolveEventId op).2.rsp = s.rsp := by
  unfold State.resolveEventId; split <;> rfl
@[simp] theorem State.resolveEventId_buf : (s.resolveEventId op).2.buf = s.buf := by
  unfold State.resolveEventId; split <;> rfl
@[simp] theorem State.resolveEventId_params : (s.resolveEventId op).2.params = s.params := by
  unfold State.resolveEventId; split <;> rfl
@[simp] theorem State.resolveEventId_events : (s.resolveEventId op).2.events = s.events := by
  unfold State.resolveEventId; split <;> rfl
@[simp] theorem State.resolveEventId_nowS : (s.resolveEventId op).2.nowS = s.nowS := by
  unfold State.resolveEventId; split <;> rfl
end resolveEventId

section powerUp
variable (s : State)
@[simp] theorem State.powerUp_seq : s.powerUp.seq = s.params.seqSeed := rfl
@[simp] theorem State.powerUp_rsp : s.powerUp.rsp = Response.reset := rfl
@[simp] theorem State.powerUp_buf : s.powerUp.buf = Buffer.empty := rfl
@[simp] theorem State.powerUp_params : s.powerUp.params = s.params := rfl
@[simp] theorem State.powerUp_events : s.powerUp.events = s.events := rfl
@[simp] theorem State.powerUp_nowS : s.powerUp.nowS = s.nowS := rfl
end powerUp

end Sys2Proof.Machine
end

