-- ==== Sys2Proof/Laws/Machine.lean ====
section
/-! SUPPORT. What the operations, the dispatch and a step can do, said once. -/

namespace Sys2Proof.Machine

/-! ## The response of a GEN operation (42_cue_generator.md R129), field by field -/

section respondCue
variable (op : Byte) (cue : CueCommand) (id : U32) (c : SpliceInsert) (s : State)
@[simp] theorem respondCue_seq : (respondCue op cue id c s).seq = s.seq := rfl
@[simp] theorem respondCue_buf : (respondCue op cue id c s).buf = Buffer.empty := rfl
@[simp] theorem respondCue_params : (respondCue op cue id c s).params = s.params := rfl
@[simp] theorem respondCue_events : (respondCue op cue id c s).events = s.events := rfl
@[simp] theorem respondCue_nowS : (respondCue op cue id c s).nowS = s.nowS := rfl
@[simp] theorem respondCue_err : (respondCue op cue id c s).rsp.err = 0 := rfl
@[simp] theorem respondCue_olen :
    (respondCue op cue id c s).rsp.olen = (encodeSection s.params fixedHeader (.insert c) [] s.buf).wp := rfl
@[simp] theorem respondCue_obuf :
    (respondCue op cue id c s).rsp.obuf = some (encodeSection s.params fixedHeader (.insert c) [] s.buf).contents := rfl
@[simp] theorem respondCue_evid : (respondCue op cue id c s).rsp.evid = some id := rfl
@[simp] theorem respondCue_tstamp : (respondCue op cue id c s).rsp.tstamp = some s.nowS := rfl
@[simp] theorem respondCue_echo : (respondCue op cue id c s).rsp.echo = some ⟨op, cue⟩ := rfl
end respondCue

/-! ## The operations, each as one equation -/

theorem execSeqNext_eq (s : State) :
    execSeqNext s = .next (s.drawId.2.respond ⟨errNone, 0, none, some s.seq, none, none⟩) := rfl

theorem execSeqReset_eq (seed : U32) (s : State) :
    execSeqReset seed s = .next ({ s with seq := seed }.respond ⟨errNone, 0, none, none, none, none⟩) := rfl

theorem execGenOut_eq (cue : CueCommand) (s : State) :
    execGenOut cue s = .next (respondCue opGenOut cue (s.resolveEventId cue).1
      (cueOutCommand (s.resolveEventId cue).1 s.nowS (adSeconds cue)) (s.resolveEventId cue).2) := by
  simp [execGenOut]

theorem execGenIn_eq (cue : CueCommand) (s : State) :
    execGenIn cue s = .next (respondCue opGenIn cue (s.resolveEventId cue).1
      (cueInCommand (s.resolveEventId cue).1 s.nowS) (s.resolveEventId cue).2) := by
  simp [execGenIn]

theorem execGenCrash_eq (cue : CueCommand) (s : State) :
    execGenCrash cue s = .next (respondCue opGenCrash cue (s.resolveEventId cue).1
      (crashOutCommand (s.resolveEventId cue).1) (s.resolveEventId cue).2) := rfl

/-! ## A step -/

theorem step_nil {s : State} (h : s.events = []) : step s = .next s := by simp [step, h]

theorem step_reset {s : State} {rest : List Event} (h : s.events = .reset :: rest) :
    step s = .next { s with events := rest }.powerUp := by simp [step, h]

theorem step_command {s : State} {c : Command} {t : U32} {rest : List Event} (h : s.events = .command c t :: rest) :
    step s = performCommand c { s with events := rest, nowS := t } := by simp [step, h]

theorem performCommand_ok {c : Command} {i : Instr} (h : decode c = .ok i) (s : State) : performCommand c s = exec i s := by
  simp [performCommand, h]

theorem performCommand_error {c : Command} {r : DecodeReject} (h : decode c = .error r) (s : State) :
    performCommand c s = .next (s.raiseError .unsupportedCommand) := by simp [performCommand, h]

/-- Everything a step can do. -/
theorem step_cases (s : State) :
    (s.events = [] ∧ step s = .next s) ∨
    (∃ rest, s.events = .reset :: rest ∧ step s = .next { s with events := rest }.powerUp) ∨
    (∃ c t rest i, s.events = .command c t :: rest ∧ decode c = .ok i ∧
      step s = exec i { s with events := rest, nowS := t }) ∨
    (∃ c t rest r, s.events = .command c t :: rest ∧ decode c = .error r ∧
      step s = .next ({ s with events := rest, nowS := t }.raiseError .unsupportedCommand)) := by
  match h : s.events with
  | [] => exact .inl ⟨rfl, step_nil h⟩
  | .reset :: rest => exact .inr (.inl ⟨rest, rfl, step_reset h⟩)
  | .command c t :: rest =>
    cases hd : decode c with
    | ok i => exact .inr (.inr (.inl ⟨c, t, rest, i, rfl, hd, by rw [step_command h, performCommand_ok hd]⟩))
    | error r => exact .inr (.inr (.inr ⟨c, t, rest, r, rfl, hd, by rw [step_command h, performCommand_error hd]⟩))

end Sys2Proof.Machine
end

