-- ==== Sys2Proof/Laws/PerInstr.lean ====
section
/-! SUPPORT. Statements made per instruction. -/

namespace Sys2Proof.Laws

/-! 30_encoding.md R52: `OP[7:4]` is the class (1 encoder, 2 dispatcher, 3 sequencer). -/

/-- The class of an instruction's family. -/
def classOf : Instr → Nat
  | .encSi _ _ _ | .encTs _ _ _ => 1
  | .genOut _ | .genIn _ | .genCrash _ => 2
  | .seqNext | .seqReset _ => 3

/-- The opcode an instruction is presented with carries its family's class in the high nibble. -/
def OpcodeClass.Statement (i : Instr) : Prop := (encode i).op.toNat / 16 = classOf i

theorem OpcodeClass.encSi (sec : SectionFields) (cmd : SpliceInsert) (ds : List Descriptor) :
    OpcodeClass.Statement (.encSi sec cmd ds) := by
  simp [OpcodeClass.Statement, encode, opcodeOf, opEncSi, classOf]
theorem OpcodeClass.encTs (sec : SectionFields) (cmd : TimeSignal) (ds : List Descriptor) :
    OpcodeClass.Statement (.encTs sec cmd ds) := by
  simp [OpcodeClass.Statement, encode, opcodeOf, opEncTs, classOf]
theorem OpcodeClass.genOut (cue : CueCommand) : OpcodeClass.Statement (.genOut cue) := by
  simp [OpcodeClass.Statement, encode, opcodeOf, opGenOut, classOf]
theorem OpcodeClass.genIn (cue : CueCommand) : OpcodeClass.Statement (.genIn cue) := by
  simp [OpcodeClass.Statement, encode, opcodeOf, opGenIn, classOf]
theorem OpcodeClass.genCrash (cue : CueCommand) : OpcodeClass.Statement (.genCrash cue) := by
  simp [OpcodeClass.Statement, encode, opcodeOf, opGenCrash, classOf]
theorem OpcodeClass.seqNext : OpcodeClass.Statement .seqNext := by
  simp [OpcodeClass.Statement, encode, opcodeOf, opSeqNext, classOf]
theorem OpcodeClass.seqReset (seed : U32) : OpcodeClass.Statement (.seqReset seed) := by
  simp [OpcodeClass.Statement, encode, opcodeOf, opSeqReset, classOf]

end Sys2Proof.Laws
end

