-- ==== Sys2Proof/Laws/Runs.lean ====
section
/-! SUPPORT. Runs step by step: what one step adds to a run, and that an idle step adds nothing. -/

namespace Sys2Proof.Machine

@[simp] theorem run_zero (s : State) : run 0 s = .next s := rfl

theorem run_succ_next {s t : State} (h : step s = .next t) (k : Nat) : run (k + 1) s = run k t := by
  simp [run, Host.Core.run, Sys2Proof.core, h]

@[simp] theorem responses_zero (s : State) : responses 0 s = [] := rfl

theorem responses_succ_next {s t : State} (h : step s = .next t) (k : Nat) :
    responses (k + 1) s = (if s.takesCommand then [t.rsp] else []) ++ responses k t := by
  simp [responses, h]

/-- With nothing presented a run stays where it is (log 6). -/
theorem run_idle {s : State} (h : s.events = []) (k : Nat) : run k s = .next s := by
  induction k with
  | zero => rfl
  | succ k ih => rw [run_succ_next (step_nil h), ih]

/-- ... and takes no command, so it adds no response. -/
theorem responses_idle {s : State} (h : s.events = []) (k : Nat) : responses k s = [] := by
  induction k with
  | zero => rfl
  | succ k ih => rw [responses_succ_next (step_nil h), ih]; simp [State.takesCommand, h]

section present
variable (cs : List (Command × U32)) (s : State)
@[simp] theorem State.present_seq : (s.present cs).seq = s.seq := rfl
@[simp] theorem State.present_rsp : (s.present cs).rsp = s.rsp := rfl
@[simp] theorem State.present_buf : (s.present cs).buf = s.buf := rfl
@[simp] theorem State.present_params : (s.present cs).params = s.params := rfl
@[simp] theorem State.present_events : (s.present cs).events = cs.map fun c => .command c.1 c.2 := rfl
@[simp] theorem State.present_nowS : (s.present cs).nowS = s.nowS := rfl
end present

end Sys2Proof.Machine
end

