-- ==== Sys2Proof/Tests/Slice0.lean ====
section
/-! SUPPORT. Tests. Every expected value is the spec's own: a row or vector of spec/95_test_vectors.md, a worked example of the rule
cited, or hand calculation from the rule. -/

namespace Sys2Proof.Tests
open Sys2Proof.Machine

/-! ## Helpers -/

/-- The next state, if there is one. -/
def next? (o : Host.Outcome State Fault Refusal) : Option State :=
  match o with
  | .next s => some s
  | _       => none

/-- A byte string as its length and its value read as one hexadecimal number. -/
def asNumber (l : List Byte) : Nat × Nat := (l.length, l.foldl (fun acc b => acc * 256 + b.toNat) 0)

/-- The bytes an instruction outputs in a state, as a number. -/
def outputOf (i : Instr) (s : State) : Option (Nat × Nat) := (next? (exec i s)).bind fun t => t.rsp.obuf.map asNumber

/-- The state after reset with the clock input at a reading. -/
def atTime (now : U32) : State := { State.reset with nowS := now }

/-- `atTime` with `LEGACY_OVF` set. -/
def legacyAtTime (now : U32) : State := { atTime now with params := ⟨100023, true, 4098⟩ }

/-- A cue command with a supplied id and, optionally, a duration. -/
def cue (id : U32) (ad : Option U32) : CueCommand := ⟨true, id, ad.isSome, ad.getD 0, false, 0⟩

/-- A cue command with nothing supplied. -/
def bareCue : CueCommand := .zero

/-- The "standard header" H0 of 95_test_vectors.md. -/
def h0 (commandType : Byte) : SectionFields := ⟨0xFC, false, false, 0, false, 0, 0, 0xFF, 0xFFF, commandType⟩

/-- Character codes of an ASCII string. -/
def codes (s : String) : List Byte := s.toList.map fun c => BitVec.ofNat 8 c.toNat

/-! ## Decoding: one word for every opcode, written out bit by bit from 30_encoding.md R52 -/

theorem test_decode_encSi : decodeTableWord 8 0b00010101 = some (.encSi .zero .zero []) := by decide
theorem test_decode_encTs : decodeTableWord 8 0b00010110 = some (.encTs .zero .zero []) := by decide
theorem test_decode_genOut : decodeTableWord 8 0b00100001 = some (.genOut .zero) := by decide
theorem test_decode_genIn : decodeTableWord 8 0b00100010 = some (.genIn .zero) := by decide
theorem test_decode_genCrash : decodeTableWord 8 0b00100011 = some (.genCrash .zero) := by decide
theorem test_decode_seqNext : decodeTableWord 8 0b00110001 = some .seqNext := by decide
theorem test_decode_seqReset : decodeTableWord 8 0b00110010 = some (.seqReset 0) := by decide
/-- 95_test_vectors.md 2.9: unlisted opcodes next to listed ones. -/
theorem test_decode_unlisted :
    [0x00, 0x14, 0x17, 0x20, 0x24, 0x30, 0x33, 0xFF].map (decodeTableWord 8) = List.replicate 8 none := by decide
/-- The operand record the opcode calls for is the one read. -/
theorem test_decode_reads_own_record :
    decode ⟨0x32, { Operands.zero with seed := 5, cue := cue 9 none }⟩ = .ok (.seqReset 5) := by decide

/-! ## WellFormed: an ill-formed term for each check -/

theorem test_wf_straps_too_small : Params.wellFormed ⟨100023, false, 42⟩ = false := by decide
theorem test_wf_straps_standard : Params.standard.wellFormed = true := by decide

/-- A splice insert as the wrapper holds it, not cancelled, with `programSpliceFlag`. -/
def sourceInsert (t : Option SourceSpliceTime) (d : Option SourceBreakDuration) : SourceSpliceInsert :=
  ⟨1, false, false, true, false, false, t, d, 0, 0, 0⟩
def sourceSection (c : SourceSpliceCommand) : SourceSection := ⟨0xFC, false, false, 0, false, 0, 0, 0xFF, 0xFFF, 5, c, []⟩

theorem test_wf_splice_time_absent : (sourceInsert none none).consistent = false := by decide
theorem test_wf_break_without_flag : (sourceInsert (some ⟨false, 0⟩) (some ⟨true, 5⟩)).consistent = false := by decide
theorem test_wf_consistent : (sourceInsert (some ⟨false, 0⟩) none).consistent = true := by decide
theorem test_wf_negative_seed : (SourceCall.reset (-1)).nonNegative = false := by decide
theorem test_wf_negative_tier :
    ({ sourceSection (.timeSignal false 0) with tier := -1 } : SourceSection).nonNegative = false := by decide
theorem test_wf_negative_pts : (sourceSection (.timeSignal true (-1))).nonNegative = false := by decide
theorem test_wf_negative_duration : (SourceCall.generateCue cueOutString none (some (-600)) none).nonNegative = false := by decide
theorem test_wf_negative_tag :
    ({ sourceSection (.timeSignal false 0) with descriptors := [⟨-1, .bytes, []⟩] } : SourceSection).nonNegative = false := by
  decide
theorem test_wf_negative_event_id :
    (sourceSection (.spliceInsert { sourceInsert none none with spliceEventId := -1 })).nonNegative = false := by decide

/-! ## CRC-32 (95_test_vectors.md 2.1) -/

theorem test_crc_empty : crc32 [] = 0x00000000 := by decide
theorem test_crc_00 : crc32 [0x00] = 0xB1F7404B := by decide +kernel
theorem test_crc_ff : crc32 [0xFF] = 0x000000FF := by decide +kernel
theorem test_crc_check_string : crc32 (codes "123456789") = 0xFC891918 := by decide +kernel

/-! ## Views (95_test_vectors.md 2.2, 2.3) -/

theorem test_hex_view : hexView [0x0A, 0x4E, 0x2D, 0x73] = codes "0A4E2D73" := by decide +kernel
theorem test_base64_one : base64View [0xFC] = codes "/A==" := by decide +kernel
theorem test_base64_two : base64View [0xFC, 0x30] = codes "/DA=" := by decide +kernel
theorem test_base64_four : base64View [0xFC, 0x30, 0xF0, 0x1D] = codes "/DDwHQ==" := by decide +kernel
theorem test_base64_letters : base64View [0x0A, 0x4E, 0x2D, 0x73] = codes "Ck4tcw==" := by decide +kernel
theorem test_hexDecode_mixed_case : hexDecode (codes "aBcD") = some [0xAB, 0xCD] := by decide +kernel
theorem test_hexDecode_malformed :
    [codes "ABC", codes "0G", codes "0x0A", codes "0A 0B", codes "0A0 "].map hexDecode = List.replicate 5 none := by decide +kernel

/-! ## ENC.TS (95_test_vectors.md 2.5) -/

/-- V6a. -/
theorem test_encTs_unspecified :
    outputOf (.encTs (h0 6) ⟨false, 5⟩ []) State.reset = some (23, 0xFC30F014000000000000FFFFFFF00106000000D1904529) := by
  decide +kernel

/-- V5: every header field in use. -/
def v5 : Instr :=
  .encTs ⟨0xFC, true, true, 3, true, 0x2A, 0x100000001, 0x12, 0xABC, 6⟩ ⟨true, 0x123456789⟩
    [⟨0x02, .bytes, [0x43, 0x55, 0x45, 0x49, 0, 0, 0, 1]⟩, ⟨0xEE, .bytes, []⟩]
theorem test_encTs_every_field :
    outputOf v5 State.reset =
      some (40, 0xFCF0F02503D50000000112ABCFF00606000C80012345678902084355454900000001EE00D9BC2C0D) := by decide +kernel
theorem test_encTs_every_field_legacy :
    outputOf v5 (legacyAtTime 0) =
      some (40, 0xFCF0F02503D40000000112ABCFF00606000C80002345678902084355454900000001EE00EFE11128) := by decide +kernel

/-! ## ENC.SI (95_test_vectors.md 2.6) -/

/-- V4: cancelled, every other field set. -/
theorem test_encSi_cancelled :
    outputOf (.encSi (h0 5) ⟨0xDEADBEEF, true, true, true, true, true, ⟨true, 7⟩, ⟨true, 7⟩, 1, 2, 3⟩ []) State.reset =
      some (27, 0xFC30F018000000000000FFFFFFF005050000DEADBEEF803D8D7195) := by decide +kernel

/-- V7: no splice time and nothing in its place, break duration with its overflow bit. -/
theorem test_encSi_component_mode :
    outputOf (.encSi (h0 5) ⟨1, false, true, false, true, false, ⟨true, 7⟩, ⟨false, 0x100000000⟩, 0x0102, 3, 4⟩ []) State.reset =
      some (37, 0xFC30F022000000000000FFFFFFF00F0500000000000100A00100000000010203043A32726D) := by decide +kernel

/-! ## GEN (95_test_vectors.md 2.7) -/

theorem test_ticks :
    [0, 1, 47722, 95443, 95444, 1700000000, 4294967295].map ticks =
      [0x000000000, 0x000015F90, 0x1000031A0, 0x1FFFF03B0, 0x000006340, 0x116A69000, 0x1FFFEA070] := by decide +kernel

/-- V1 with the default duration. -/
theorem test_genOut_default_duration :
    outputOf (.genOut (cue 100023 none)) (atTime 1700000000) =
      some (43, 0xFC30F028000000000000FFFFFFF015050000000186B700E0800116A69000800337F980000100006B2A54D2) := by decide +kernel
/-- Id 0 is a supplied id; the duration wraps. -/
theorem test_genOut_id_zero :
    outputOf (.genOut (cue 0 (some 100000))) (atTime 1) =
      some (43, 0xFC30F028000000000000FFFFFFF0150500000000000000E0800000015F908018711A0000010000CF06C6AC) := by decide +kernel
/-- V2. -/
theorem test_genIn :
    outputOf (.genIn (cue 100024 none)) (atTime 1700000000) =
      some (38, 0xFC30F023000000000000FFFFFFF010050000000186B80040800116A69000000100008B43F6F7) := by decide +kernel
theorem test_genIn_legacy :
    outputOf (.genIn (cue 1 none)) (legacyAtTime 4294967295) =
      some (38, 0xFC30F023000000000000FFFFFFF0100500000000000100408000FFFEA07000010000DDFDECD5) := by decide +kernel
/-- V3. -/
theorem test_genCrash :
    outputOf (.genCrash (cue 100025 none)) (atTime 9) =
      some (32, 0xFC30F01D000000000000FFFFFFF00A050000000186B900500001000035AC951A) := by decide +kernel
/-- Program 1, step 1: a drawn id, reported and counted. -/
theorem test_genOut_draws_id :
    (next? (exec (.genOut bareCue) (atTime 1700000000))).map (fun t => (t.rsp.evid, t.rsp.tstamp, t.rsp.olen, t.seq)) =
      some (some 100023, some 1700000000, 43, 100024) := by decide +kernel
/-- Program 1, step 3: a supplied id does not move `SEQ`. -/
theorem test_genCrash_supplied_id :
    (next? (exec (.genCrash (cue 100025 none)) { atTime 5 with seq := 100025 })).map (fun t => (t.rsp.evid, t.seq, t.rsp.echo)) =
      some (some 100025, 100025, some ⟨0x23, cue 100025 none⟩) := by decide +kernel

/-! ## SEQ (95_test_vectors.md 2.8) -/

theorem test_seqNext :
    (next? (exec .seqNext State.reset)).map (fun t => (t.rsp.evid, t.seq, t.rsp.olen, t.rsp.err)) =
      some (some 100023, 100024, 0, 0) := by decide
theorem test_seqNext_wraps :
    (next? (exec .seqNext { State.reset with seq := 4294967295 })).map (fun t => (t.rsp.evid, t.seq)) =
      some (some 4294967295, 0) := by decide
theorem test_seqReset_backwards :
    (next? (exec (.seqReset 100023) { State.reset with seq := 100030 })).map (fun t => (t.rsp.evid, t.seq)) =
      some (none, 100023) := by decide

/-! ## Errors and refusal (95_test_vectors.md 2.9) -/

theorem test_unlisted_opcode :
    (next? (step { State.reset with events := [.command ⟨0x24, .zero⟩ 7] })).map (fun t => (t.rsp, t.seq)) =
      some (⟨1, 0, none, none, none, none⟩, 100023) := by decide
theorem test_malformed_hex_cancelled :
    (next? (exec (.encSi (h0 5) ⟨1, true, false, false, false, false, ⟨false, 0⟩, ⟨false, 0⟩, 0, 0, 0⟩ [⟨1, .hex, codes "0"⟩])
      State.reset)).map (·.rsp) = some ⟨2, 0, none, none, none, none⟩ := by decide
/-- Hand calculation from 20_memory.md R41: 22 + 1 + 2 + 19 = 44 bytes do not fit in 43. -/
theorem test_too_long_refused :
    (match exec (.encTs (h0 6) ⟨false, 0⟩ [⟨0, .bytes, List.replicate 19 0⟩]) { State.reset with params := ⟨0, false, 43⟩ } with
      | .refused r => some r
      | _          => none) = some .sectionExceedsBuffer := by decide
/-- ... and 43 bytes do. -/
theorem test_full_buffer_accepted :
    (next? (exec (.encTs (h0 6) ⟨false, 0⟩ [⟨0, .bytes, List.replicate 18 0⟩])
      { State.reset with params := ⟨0, false, 43⟩ })).map (·.rsp.olen) = some 43 := by decide +kernel

/-! ## Steps, reset, the host's side -/

/-- 10_state.md R25: the reading presented with the command is the one sampled. -/
theorem test_step_samples_clock :
    (next? (step { State.reset with events := [.command (encode (.genCrash bareCue)) 42] })).map (fun t => (t.rsp.tstamp, t.events)) =
      some (some 42, []) := by decide +kernel
/-- 70_reset_and_hazards.md R172: a reset keeps the straps and reseeds. -/
theorem test_reset_event :
    (next? (step { State.resetWith ⟨7, true, 50⟩ with seq := 99, events := [.reset] })) = some (State.resetWith ⟨7, true, 50⟩) := by
  decide
/-- 10_state.md R22: after SEQ.NEXT the bytes have no value and the id has. -/
theorem test_host_reads :
    (next? (exec .seqNext State.reset)).map (fun t => (t.hostObuf 0, t.hostEvid)) =
      some (.error .responseFieldHasNoValue, .ok 100023) := by decide
/-- 95_test_vectors.md 1.2 S2 as the source calls it. -/
theorem test_call_cue_in :
    expandCall (.generateCue (codes "CUE-IN") (some 100024) none none) = .ok (encode (.genIn (cue 100024 none))) := by decide
/-- 30_encoding.md R54: lower case is no cue type. -/
theorem test_call_unknown_type :
    (expandCall (.generateCue (codes "cue-in") none none none)).toOption.map (fun c => (decode c).toOption) = some none := by decide
/-- 10_state.md R29: a value wider than its port is presented modulo 2^w. -/
theorem test_call_truncates : expandCall (.reset (4294967296 + 5)) = .ok (encode (.seqReset 5)) := by decide

/-! ## Witnesses: for each statement of Certificates/Slice0/Obligations.lean that has hypotheses, a state and operands that meet
them together, clause by clause, at a boundary where a range is assumed. A statement named in two witnesses has two clauses. -/

/-- The bytes an instruction outputs in a state. -/
def output? (i : Instr) (s : State) : Option (List Byte) := (next? (exec i s)).bind (·.rsp.obuf)

theorem outputs_of_isSome {i : Instr} {s : State} (h : (output? i s).isSome = true) : ∃ l, Outputs i s l := by
  unfold output? at h
  cases e : exec i s with
  | next t =>
    simp only [e, next?, Option.bind_some] at h
    exact ⟨_, t, e, (Option.some_get h).symm⟩
  | fault r => simp [e, next?] at h
  | refused r => simp [e, next?] at h

theorem completes_of_isSome {i : Instr} {s : State} (h : (next? (exec i s)).isSome = true) : ∃ t, exec i s = .next t := by
  cases e : exec i s with
  | next t => exact ⟨t, rfl⟩
  | fault r => simp [e, next?] at h
  | refused r => simp [e, next?] at h

/-- A state with one command presented. -/
def presenting (c : Command) : State := { State.reset with events := [.command c 7] }

/-- A splice insert that is not cancelled. -/
def insertWith (program duration immediate specified : Bool) : SpliceInsert :=
  ⟨1, false, true, program, duration, immediate, ⟨specified, 0x1FFFFFFFF⟩, ⟨true, 0x1FFFFFFFF⟩, 1, 2, 3⟩
/-- A cancelled one. -/
def cancelledInsert (n : Byte) : SpliceInsert := ⟨1, true, true, true, true, false, ⟨true, 7⟩, ⟨true, 7⟩, 1, n, n⟩
/-- A descriptor in each form. -/
def twoForms : List Descriptor := [⟨1, .bytes, [0xFF]⟩, ⟨2, .hex, codes "0a"⟩]

theorem witness_StepRunsTheDecodedCommand :
    (presenting (encode .seqNext)).events = .command (encode .seqNext) 7 :: [] ∧ decode (encode .seqNext) = .ok .seqNext := by
  decide
theorem witness_UnlistedOpcode :
    (presenting ⟨0x33, .zero⟩).events = .command ⟨0x33, .zero⟩ 7 :: [] ∧
      (⟨0x33, .zero⟩ : Command).op ∉ ([0x15, 0x16, 0x21, 0x22, 0x23, 0x31, 0x32] : List Byte) := by decide
theorem witness_ResetEventReseeds : ({ State.reset with seq := 3, events := [.reset] } : State).events = .reset :: [] := rfl
theorem witness_IdleStepKeepsState : State.reset.events = [] := rfl

theorem witness_SeqNext_example : State.reset.seq = 100023 ∧ ∃ t, exec .seqNext State.reset = .next t := ⟨rfl, _, rfl⟩
theorem witness_CounterWrapsToZero :
    [Instr.seqNext, .genOut bareCue, .genIn bareCue, .genCrash bareCue].map drawsId = List.replicate 4 true ∧
      ({ State.reset with seq := 0xFFFFFFFF } : State).seq = 0xFFFFFFFF := ⟨rfl, rfl⟩
theorem witness_SeqReset_example : ∃ s1 s2 s3 s4, exec (.seqReset 5) State.reset = .next s1 ∧ exec .seqNext s1 = .next s2 ∧
    exec .seqNext s2 = .next s3 ∧ exec .seqNext s3 = .next s4 := ⟨_, _, _, _, rfl, rfl, rfl, rfl⟩

/-- Two draws across the wrap, from SEQ.NEXT and GEN.CRASH: the run also completes. -/
def twoDraws : State :=
  { State.reset with seq := 0xFFFFFFFF, events := [.command (encode .seqNext) 1, .command (encode (.genCrash bareCue)) 2] }
theorem witness_SequencerMonotonicity : (∀ e ∈ twoDraws.events.take 2, e.reseeds = false) ∧ ∃ t, RunsTo 2 twoDraws t :=
  ⟨by decide, _, rfl⟩
theorem witness_DrawnIdsNeverRepeat :
    (∀ e ∈ twoDraws.events.take 2, e.reseeds = false) ∧ (drawnIds 2 twoDraws).length ≤ 2 ^ 32 ∧
      drawnIds 2 twoDraws = [0xFFFFFFFF, 0] := by decide +kernel
/-- Every operation answers a next state somewhere: the frames, the invariants of `exec` and OnlyDrawsAndReseedsMoveSeq. -/
theorem witness_every_operation_completes :
    [Instr.seqNext, .seqReset 5, .genOut bareCue, .genIn bareCue, .genCrash bareCue, .encSi (h0 5) (insertWith true true false true) [],
      .encTs (h0 6) ⟨true, 1⟩ []].map (fun i => (next? (exec i State.reset)).isSome) = List.replicate 7 true := by decide +kernel

theorem witness_TicksReduceTheExactProduct : (2 ^ 29 : U32).toNat % 2 ^ 29 = (0 : U32).toNat % 2 ^ 29 := by decide
theorem witness_UnusedCueFieldsDoNotShow :
    ∃ t u t' u' t'' u'', exec (.genOut { bareCue with preRollValid := true, preRollDuration := 9 }) State.reset = .next t ∧
      exec (.genOut bareCue) State.reset = .next u ∧
      exec (.genIn { bareCue with preRollValid := true, preRollDuration := 9, adDurationValid := true, adDuration := 4 })
        State.reset = .next t' ∧ exec (.genIn bareCue) State.reset = .next u' ∧
      exec (.genCrash { bareCue with preRollValid := true, preRollDuration := 9, adDurationValid := true, adDuration := 4 })
        State.reset = .next t'' ∧ exec (.genCrash bareCue) State.reset = .next u'' :=
  ⟨_, _, _, _, _, _, rfl, rfl, rfl, rfl, rfl, rfl⟩
theorem witness_CrashOmitsTheSpliceTime : (∃ b, Outputs (.genIn bareCue) (atTime 5) b) ∧ ∃ b, Outputs (.genCrash bareCue) (atTime 5) b :=
  ⟨outputs_of_isSome (by decide +kernel), outputs_of_isSome (by decide +kernel)⟩
/-- At the least capacity the straps admit. -/
theorem witness_GenDelegatesToTheEncoder : 43 ≤ (State.resetWith ⟨100023, false, 43⟩).params.obufSize := by decide

theorem witness_EncSi_decodes : ∃ d, decodeDescriptors twoForms = some d := ⟨_, rfl⟩
theorem witness_Enc_malformed : decodeDescriptors [⟨1, .hex, codes "0"⟩] = none := by decide
/-- The largest section the default capacity accepts (95_test_vectors.md 2.9), and one byte more. -/
theorem witness_EncTs_capacity :
    (∃ d, decodeDescriptors [⟨0, .bytes, List.replicate 4073 0⟩] = some d ∧ 22 + 1 + descLength d ≤ State.reset.params.obufSize) ∧
    ∃ d, decodeDescriptors [⟨0, .bytes, List.replicate 4074 0⟩] = some d ∧ 22 + 1 + descLength d > State.reset.params.obufSize := by
  refine ⟨⟨_, rfl, ?_⟩, ⟨_, rfl, ?_⟩⟩ <;> decide +kernel
/-- The same for the shortest splice insert that is not cancelled. -/
theorem witness_EncSi_capacity :
    (∃ d, decodeDescriptors [⟨0, .bytes, List.replicate 4064 0⟩] = some d ∧
      22 + bodyLengthSI (insertWith false false false false) + descLength d ≤ State.reset.params.obufSize) ∧
    ∃ d, decodeDescriptors [⟨0, .bytes, List.replicate 4065 0⟩] = some d ∧
      22 + bodyLengthSI (insertWith false false false false) + descLength d > State.reset.params.obufSize := by
  refine ⟨⟨_, rfl, ?_⟩, ⟨_, rfl, ?_⟩⟩ <;> decide +kernel

/-- ENC.SI and ENC.TS output bytes on records with descriptors: AdjustmentAndTierFields, HeaderBytesHoldTheirFields,
LengthFieldsCountTheirRegions, TrailerIsTheCrcOfTheRest, DescriptorLoopBytes, ReservedBitsAreFixed, EncodingIsPure. -/
theorem witness_Enc_outputs :
    (∃ l, Outputs (encInstr (h0 5) (.insert (insertWith true true false true)) twoForms) State.reset l) ∧
    (∃ l, Outputs (encInstr (h0 6) (.time ⟨true, 0x1FFFFFFFF⟩) twoForms) State.reset l) ∧
    ∃ d, decodeDescriptors twoForms = some d :=
  ⟨outputs_of_isSome (by decide +kernel), outputs_of_isSome (by decide +kernel), _, rfl⟩
/-- Every shape of a splice insert's body, not cancelled and cancelled: SpliceInsertBodyBytes, CancelShortCircuit,
AbsentSubstructuresDoNotShow, the clauses of ReservedBitsAreFixed. -/
theorem witness_SpliceInsert_shapes :
    [insertWith true true false true, insertWith true true false false, insertWith true false false false, insertWith true true true true,
      insertWith false true false true, insertWith false false false false, cancelledInsert 1, cancelledInsert 2].map
      (fun c => (output? (.encSi (h0 5) c []) State.reset).map fun l => l.length - 22) =
      [some 21, some 16, some 11, some 15, some 15, some 10, some 5, some 5] := by decide +kernel
theorem witness_TimeSignalBodyBytes :
    ((⟨false, 5⟩ : TimeSignal).specified = false ∧ ∃ l, Outputs (.encTs (h0 6) ⟨false, 5⟩ []) State.reset l) ∧
    (⟨true, 5⟩ : TimeSignal).specified = true ∧ ∃ l, Outputs (.encTs (h0 6) ⟨true, 5⟩ []) State.reset l :=
  ⟨⟨rfl, outputs_of_isSome (by decide +kernel)⟩, rfl, outputs_of_isSome (by decide +kernel)⟩
/-- At the default capacity itself. -/
theorem witness_DefaultCapacityNeverTruncates :
    State.reset.params.obufSize ≤ 4098 ∧ ∃ l, Outputs (.genOut bareCue) State.reset l :=
  ⟨by decide, outputs_of_isSome (by decide +kernel)⟩
theorem witness_LegacyOverflowHidesBit32 : (legacyAtTime 0).params.legacyOvf = true := rfl
theorem witness_EncodingIsPure :
    (∃ t, exec (encInstr (h0 6) (.time ⟨true, 5⟩) []) State.reset = .next t) ∧
    (atTime 9).params.legacyOvf = State.reset.params.legacyOvf ∧
    ∃ t, exec (encInstr (h0 6) (.time ⟨true, 5⟩) []) (atTime 9) = .next t :=
  ⟨completes_of_isSome (by decide +kernel), rfl, completes_of_isSome (by decide +kernel)⟩
/-- An odd length, and a character that is no digit; then a string that is well formed, and an operation that is not ENC. -/
theorem witness_MalformedDescriptorData :
    malformedDescriptor ⟨1, .hex, codes "0"⟩ ∧ malformedDescriptor ⟨1, .hex, codes "0G"⟩ ∧
    (∀ d ∈ twoForms, ¬ malformedDescriptor d) ∧ ∀ sec cmd ds, Instr.seqNext ≠ encInstr sec cmd ds := by
  refine ⟨⟨rfl, .inl (by decide)⟩, ⟨rfl, .inr ⟨0x47, by decide, by simp [isHexDigit]⟩⟩, ?_, ?_⟩
  · intro d hd
    simp only [twoForms, List.mem_cons, List.not_mem_nil, or_false] at hd
    rcases hd with rfl | rfl <;> simp [malformedDescriptor, codes, isHexDigit]
  · intro sec cmd ds
    cases cmd <;> simp [encInstr]
theorem witness_HexDecodeIsExact :
    hexDecode (codes "0aF9") = some [0x0A, 0xF9] ∧ (codes "0aF9")[2 * 1]? = some 0x46 ∧ (codes "0aF9")[2 * 1 + 1]? = some 0x39 := by
  decide +kernel

/-- The greatest value of each width, on a buffer that holds a byte before the pointer; and an offset on either side. -/
theorem witness_AppendWritesBigEndian :
    (∀ n ∈ ([1, 2, 4] : List Nat), 2 ^ (8 * n) - 1 < 2 ^ (8 * n) ∧ n - 1 < n) ∧ (0 < (⟨[(0, 9)], 1⟩ : Buffer).wp ∧
      (⟨[(0, 9)], 1⟩ : Buffer).wp + 4 ≤ 5) := by decide
theorem witness_MemReadAfterMemWrite : 0xFFFF < 2 ^ (8 * 2) ∧ (1 < 2 ∨ 2 + 2 ≤ 1) ∧ (4 < 2 ∨ 2 + 2 ≤ 4) := by decide
/-- A digit on each side of nine. -/
theorem witness_HexViewDigits : ([0x9A] : List Byte)[0]? = some 0x9A := rfl

theorem witness_CueTypeStrings :
    [cueOutString, cueInString, crashOutString, codes "cue-in"].map
      (fun t => (expandCall (.generateCue t none (some 600) none)).toOption.isSome) = List.replicate 4 true ∧
    codes "cue-in" ∉ [[0x43, 0x55, 0x45, 0x2D, 0x4F, 0x55, 0x54], [0x43, 0x55, 0x45, 0x2D, 0x49, 0x4E],
      ([0x43, 0x52, 0x41, 0x53, 0x48, 0x2D, 0x4F, 0x55, 0x54] : List Byte)] := by decide
/-- Base64: a full group and each kind of last group. -/
theorem witness_Base64ViewCharacters :
    (([1, 2, 255] : List Byte)[3 * 0]? = some 1 ∧ ([1, 2, 255] : List Byte)[3 * 0 + 1]? = some 2 ∧
      ([1, 2, 255] : List Byte)[3 * 0 + 2]? = some 255) ∧
    ([1, 2, 3, 4, 5] : List Byte).length = 3 * 1 + 2 ∧ ([1, 2, 3, 4] : List Byte).length = 3 * 1 + 1 ∧
    ([1, 2, 3, 4] : List Byte)[3 * 1]? = some 4 := by decide

/-- A call of each kind that the wrapper accepts, numbers at and past their widths; one it refuses for each reason; and a 33-bit
port with bit 32 set. -/
theorem witness_WrapperPresentsLowBits :
    [SourceCall.next, .reset (2 ^ 32), .generateCue cueOutString (some (2 ^ 32 - 1)) none (some 256),
      .encodeSection (sourceSection (.timeSignal true (2 ^ 33))),
      .encodeSection (sourceSection (.spliceInsert (sourceInsert (some ⟨true, 2 ^ 33 - 1⟩) none)))].map
      (fun c => (expandCall c).toOption.isSome) = List.replicate 5 true ∧
    (SourceCall.reset (-1)).nonNegative = false ∧
    (SourceCall.encodeSection (sourceSection (.spliceInsert (sourceInsert none none)))).consistent = false ∧
    Params.standard.legacyOvf = false := by decide
theorem witness_Presents : Presents (0x100000005 : U33) (2 ^ 33 + 2 ^ 32 + 5) := ⟨by decide, by decide⟩
/-- An absent duration: its `Valid` bit is 0 (30_encoding.md R74); the value wire's 0 is the model's choice (log 24). -/
theorem test_call_absent_number :
    (expandCall (.generateCue cueOutString none none none)).toOption.map (fun c => c.operands.cue.adDurationValid) = some false := by
  decide

/-- After GEN.OUT with a drawn id a host reads every field; after a reset none but ERR and OLEN. -/
theorem test_host_reads_after_gen :
    ((next? (exec (.genOut bareCue) (atTime 5))).map fun t => (t.hostObuf 42 |>.toOption.isSome, t.hostObuf 43, t.hostEvid, t.hostTstamp)) =
      some (true, .error .responseFieldHasNoValue, .ok 100023, .ok 5) := by decide +kernel
theorem test_host_reads_after_reset : State.reset.hostEcho = .error .responseFieldHasNoValue := by decide

/-- A command, a reset, a command, then idle steps. -/
def aroundReset : State := { State.reset with events := [.command (encode .seqNext) 1, .reset, .command (encode .seqNext) 2] }
/-- 70_reset_and_hazards.md R181: two commands, two responses, whatever steps follow; both ids are the seed (R173). -/
theorem test_responses_around_reset :
    (responses 3 aroundReset).map (·.evid) = [some 100023, some 100023] ∧ responses 5 aroundReset = responses 3 aroundReset := by
  decide
/-- 95_test_vectors.md 3, program 2's kind: an unlisted opcode answers code 1 and draws nothing. -/
theorem test_runCommands :
    (runCommands [(⟨0x24, .zero⟩, 1), (encode .seqNext, 2)] State.reset).map
      (fun l => (l.seq, l.last.map (·.evid), l.responses.map (·.err))) = some (100024, some (some 100023), [1, 0]) := by decide
/-- Runs that complete: across a reset, past the last event, and of commands only. -/
theorem witness_RunLeavesSeqAndResponses :
    (∃ t, RunsTo 3 aroundReset t) ∧ aroundReset.events.length ≤ 3 ∧
    (∃ t, RunsTo 2 twoDraws t) ∧ (∀ e ∈ twoDraws.events.take 2, e.isCommand = true) ∧
    (∃ t, RunsTo [(encode .seqNext, (1 : U32))].length (State.reset.present [(encode .seqNext, 1)]) t) ∧
    (∃ t, step (State.reset.present [(encode .seqNext, 1)]) = .next t) ∧
    step ({ State.reset with params := ⟨0, false, 43⟩ }.present
      [(encode (.encTs (h0 6) ⟨false, 0⟩ [⟨0, .bytes, List.replicate 19 0⟩]), 1)]) = .refused .sectionExceedsBuffer :=
  ⟨⟨_, rfl⟩, by decide, ⟨_, rfl⟩, by decide, ⟨_, rfl⟩, ⟨_, rfl⟩, rfl⟩

theorem witness_SequencerOperationsFrame :
    (∃ t, exec .seqNext State.reset = .next t) ∧ ∃ t, exec (.seqReset 0xFFFFFFFF) State.reset = .next t := ⟨⟨_, rfl⟩, _, rfl⟩
/-- A next state with bytes and one with an error. -/
theorem witness_EncoderOperationsFrame :
    (∃ t, exec (encInstr (h0 6) (.time ⟨false, 0⟩) []) State.reset = .next t) ∧
    ∃ t, exec (encInstr (h0 6) (.time ⟨false, 0⟩) [⟨1, .hex, codes "0"⟩]) State.reset = .next t :=
  ⟨completes_of_isSome (by decide +kernel), _, rfl⟩
theorem witness_DispatcherOperationsFrame :
    (cue 5 none).eventIdValid = true ∧ ∃ t, exec (.genOut (cue 5 none)) State.reset = .next t :=
  ⟨rfl, completes_of_isSome (by decide +kernel)⟩
theorem witness_NoResultDependsOnTheLastResponse :
    (∃ t, exec (.genIn bareCue) { State.reset with buf := ⟨[(0, 1)], 1⟩ } = .next t) ∧
    (∃ t, exec (.genIn bareCue) State.reset = .next t) ∧ State.reset.buf = ⟨[], 0⟩ :=
  ⟨completes_of_isSome (by decide +kernel), completes_of_isSome (by decide +kernel), rfl⟩

theorem witness_NoStepChangesTheStraps : ∃ t, step (presenting (encode .seqNext)) = .next t := ⟨_, rfl⟩
theorem witness_OnlyCapacityStopsAStep :
    step { presenting (encode (.encTs (h0 6) ⟨false, 0⟩ [⟨0, .bytes, List.replicate 19 0⟩])) with params := ⟨0, false, 43⟩ } =
      .refused .sectionExceedsBuffer := by rfl
theorem witness_InvariantHoldsAtReset : (⟨5, true, 43⟩ : Params).wellFormed = true := by decide
/-- Reset meets the invariant, so does reset with a command presented, and that state steps. -/
theorem witness_StepKeepsInvariant : BlockInv (presenting (encode .seqNext)) ∧ ∃ t, step (presenting (encode .seqNext)) = .next t :=
  ⟨⟨by decide, ⟨by decide, rfl, by decide, by simp [presenting, State.reset, State.resetWith, Response.reset],
    by decide, rfl, by decide, by simp [presenting, State.reset, State.resetWith, Response.reset]⟩, rfl⟩, _, rfl⟩

end Sys2Proof.Tests
end

section
/-! Proofs of the statements of 00_scope.md. -/

namespace Sys2Proof.Machine

/-- Settles O3: a command event hands the step to the dispatch, and the dispatch of a command that decodes is `exec`. -/
theorem stepRunsTheDecodedCommand : Obligations.StepRunsTheDecodedCommand := by
  intro s c t rest i hev hdec
  calc step s
      = performCommand c { s with events := rest, nowS := t } := step_command hev
    _ = exec i { s with events := rest, nowS := t } := performCommand_ok hdec _

end Sys2Proof.Machine
end

section
/-! What an operation can leave, as relations between the operation and the states around it (10_state.md R22;
40_section_encoder.md R95, R97; 42_cue_generator.md R129; 43_event_id_sequence.md R141, R144). -/

namespace Sys2Proof.Machine

/-- 30_encoding.md R52: `i` is the GEN operation on the record `cue`, with the opcode `op`. -/
inductive IsCue (cue : CueCommand) : Instr → Byte → Prop where
  | out   : IsCue cue (.genOut cue) opGenOut
  | back  : IsCue cue (.genIn cue) opGenIn
  | crash : IsCue cue (.genCrash cue) opGenCrash

/-- `t` is what the operation `i`, performed in `s`, can leave. -/
inductive Completion (s : State) : Instr → State → Prop where
  /-- 60_exceptions.md R154: an ENC operation with a malformed descriptor. -/
  | malformed (sec : SectionFields) (cmd : SpliceCommand) (ds : List Descriptor) :
      Completion s (encInstr sec cmd ds) (s.raiseError .malformedDescriptorData)
  /-- 40_section_encoder.md R95, R97: an ENC operation whose section fits. -/
  | encoded (sec : SectionFields) (cmd : SpliceCommand) (ds : List Descriptor) (d : List RawDescriptor)
      (fits : (sectionImage s.params sec cmd d).length ≤ s.params.obufSize) :
      Completion s (encInstr sec cmd ds) (s.respond ⟨errNone, (sectionImage s.params sec cmd d).length,
        some (sectionImage s.params sec cmd d), none, none, none⟩).dropBuffer
  /-- 42_cue_generator.md R126 to R128: a GEN operation. -/
  | generated {cue : CueCommand} {i : Instr} {op : Byte} (gen : IsCue cue i op) (c : SpliceInsert) :
      Completion s i (respondCue op cue (cueId cue s) c { s with seq := cueSeq cue s })
  /-- 43_event_id_sequence.md R141. -/
  | drawn : Completion s .seqNext ({ s with seq := s.seq + 1 }.respond ⟨errNone, 0, none, some s.seq, none, none⟩)
  /-- 43_event_id_sequence.md R144. -/
  | reseeded (seed : U32) :
      Completion s (.seqReset seed) ({ s with seq := seed }.respond ⟨errNone, 0, none, none, none, none⟩)

end Sys2Proof.Machine
end

section
/-! The section the encoder produces, by the layout of 30_encoding.md, and what every such section satisfies. -/

namespace Sys2Proof.Machine

/-! ## The encoder produces the layout -/

/-- 40_section_encoder.md R93: the back-patch puts the three lengths where the header held its placeholders. -/
theorem backPatch_headerPlaceholders (p : Params) (s : SectionFields) (cl dl : Nat) (rest : List Byte) :
    backPatch cl dl (Buffer.ofBytes (headerPlaceholders p s ++ rest)) =
      Buffer.ofBytes (headerImage p s (19 + rest.length) cl dl ++ rest) := by
  have hsl : (headerPlaceholders p s ++ rest).length - 3 + 4 = 19 + rest.length := by simp; omega
  have hbytes : overwrite (overwrite (overwrite (headerPlaceholders p s ++ rest) 2 (beBytes 2 (reservedLength (19 + rest.length))))
      13 (beBytes 2 (reservedLength cl))) 16 (beBytes 2 (dl % 2 ^ 16)) = headerImage p s (19 + rest.length) cl dl ++ rest := by
    simp [headerPlaceholders, headerImage, beBytes, overwrite]
  simp only [backPatch, Buffer.ofBytes_wp, hsl]
  rw [Buffer.memWrite_ofBytes (by simp; omega), Buffer.memWrite_ofBytes (by simp; omega), Buffer.memWrite_ofBytes (by simp),
    hbytes]

/-- 40_section_encoder.md R87 against 30_encoding.md R55 to R70: the two passes leave the section's bytes. -/
@[simp] theorem encodeSection_eq_ofBytes (p : Params) (s : SectionFields) (cmd : SpliceCommand) (ds : List RawDescriptor)
    (b : Buffer) : encodeSection p s cmd ds b = Buffer.ofBytes (sectionImage p s cmd ds) := by
  have hloop : 18 + (bodyLength cmd + descLength ds) - (18 + bodyLength cmd) = descLength ds := by omega
  simp [encodeSection, writeHeader_ofBytes, backPatch_headerPlaceholders, appendTrailer, sectionImage, coveredImage,
    List.append_assoc, Nat.add_assoc, hloop]

@[simp] theorem coveredImage_length (p : Params) (s : SectionFields) (cmd : SpliceCommand) (ds : List RawDescriptor) :
    (coveredImage p s cmd ds).length = 18 + bodyLength cmd + descLength ds := by
  simp [coveredImage, Nat.add_assoc]

/-- 30_encoding.md R70, 20_memory.md R41: the byte count the capacity test uses is the section's length. -/
@[simp] theorem sectionImage_length (p : Params) (s : SectionFields) (cmd : SpliceCommand) (ds : List RawDescriptor) :
    (sectionImage p s cmd ds).length = 22 + bodyLength cmd + descLength ds := by
  simp [sectionImage]; omega

/-- The operand of the command reaches the section through the body's bytes alone. -/
theorem sectionImage_congr {p : Params} {cmd cmd' : SpliceCommand} (h : bodyImage p cmd = bodyImage p cmd') (s : SectionFields)
    (ds : List RawDescriptor) : sectionImage p s cmd ds = sectionImage p s cmd' ds := by
  simp only [sectionImage, coveredImage, h]

/-! ## Fields of a byte string -/

/-- A field that lies in the first part of a byte string. -/
theorem fieldAt_append_left {l : List Byte} {a n : Nat} (h : a + n ≤ l.length) (r : List Byte) :
    fieldAt (l ++ r) a n = fieldAt l a n := by
  rw [fieldAt, fieldAt, List.drop_append_of_le_length (by omega), List.take_append_of_le_length (by simp; omega)]

/-- A field whose bytes are the big-endian image of a value that fits it. -/
theorem fieldAt_of_beBytes {l : List Byte} {a n v : Nat} (h : (l.drop a).take n = beBytes n v) (hv : v < 256 ^ n) :
    fieldAt l a n = v := by
  rw [fieldAt, h, beValue_beBytes_of_lt hv]

/-- A one-byte field is the byte's value. -/
theorem fieldAt_one {l : List Byte} {a : Nat} {b : Byte} (h : (l.drop a).take 1 = [b]) : fieldAt l a 1 = b.toNat :=
  fieldAt_of_beBytes (h.trans (beBytes_byte b).symm) b.isLt

/-! ## The packed bytes as numbers -/

/-- 30_encoding.md R57, R61. -/
theorem reservedLength_eq (n : Nat) : reservedLength n = 0xF000 + n % 2 ^ 12 :=
  (Nat.two_pow_add_eq_or_of_lt (Nat.mod_lt n (Nat.two_pow_pos 12)) 15).symm

theorem reservedLength_lt (n : Nat) : reservedLength n < 256 ^ 2 := by
  rw [reservedLength_eq]; omega

/-- 30_encoding.md R57, R61: the high nibble of a length field is the four reserved 1 bits. -/
theorem reservedLength_high (n : Nat) : (BitVec.ofNat 8 (reservedLength n >>> 8)).toNat / 16 = 0xF := by
  rw [BitVec.toNat_ofNat, Nat.shiftRight_eq_div_pow, reservedLength_eq]; omega

/-- 30_encoding.md R56. -/
theorem flagsByte_reserved (s : SectionFields) : (flagsByte s).toNat % 64 = 0x30 := by
  unfold flagsByte
  cases s.sectionSyntaxIndicator <;> cases s.privateIndicator <;> rfl

/-- 30_encoding.md R60. -/
theorem tierWord_toNat (s : SectionFields) : (tierWord s).toNat = s.tier.toNat * 16 + 15 := by
  have h := Nat.two_pow_add_eq_or_of_lt (show 15 < 2 ^ 4 by decide) s.tier.toNat
  have ht := s.tier.isLt
  have hshift : (s.tier.setWidth 16 <<< 4).toNat = 2 ^ 4 * s.tier.toNat := by
    simp [BitVec.toNat_shiftLeft, Nat.shiftLeft_eq]; omega
  rw [tierWord, BitVec.toNat_or, hshift, Nat.mul_comm s.tier.toNat]
  exact h.symm

/-- 30_encoding.md R60: the low nibble of the tier word is four reserved 1 bits. -/
theorem tierWord_low (s : SectionFields) : (BitVec.ofNat 8 (tierWord s).toNat).toNat % 16 = 0xF := by
  rw [BitVec.toNat_ofNat, tierWord_toNat]; omega

/-! ## The header's fields -/

section headerFields
variable (p : Params) (s : SectionFields) (sl cl dl : Nat)

theorem headerImage_sectionLength : fieldAt (headerImage p s sl cl dl) 2 2 = 0xF000 + sl % 2 ^ 12 := by
  rw [← reservedLength_eq]
  exact fieldAt_of_beBytes (by simp [headerImage, beBytes]) (reservedLength_lt sl)

theorem headerImage_commandLength : fieldAt (headerImage p s sl cl dl) 13 2 = 0xF000 + cl % 2 ^ 12 := by
  rw [← reservedLength_eq]
  exact fieldAt_of_beBytes (by simp [headerImage, beBytes]) (reservedLength_lt cl)

theorem headerImage_loopLength : fieldAt (headerImage p s sl cl dl) 16 2 = dl % 2 ^ 16 :=
  fieldAt_of_beBytes (by simp [headerImage, beBytes]) (Nat.mod_lt dl (Nat.two_pow_pos 16))

/-- 30_encoding.md R71. -/
theorem headerImage_reservedBitsOk : reservedBitsOk (headerImage p s sl cl dl) := by
  refine ⟨?_, ?_, ?_, ?_⟩
  · rw [fieldAt_one (b := flagsByte s) (by simp [headerImage]), flagsByte_reserved]
  · rw [fieldAt_one (b := BitVec.ofNat 8 (reservedLength sl >>> 8)) (by simp [headerImage, beBytes]), reservedLength_high]
  · rw [fieldAt_one (b := BitVec.ofNat 8 (tierWord s).toNat) (by simp [headerImage, beBytes]), tierWord_low]
  · rw [fieldAt_one (b := BitVec.ofNat 8 (reservedLength cl >>> 8)) (by simp [headerImage, beBytes]), reservedLength_high]

end headerFields

/-! ## Every section is well formed -/

section sectionImage
variable (p : Params) (s : SectionFields) (cmd : SpliceCommand) (ds : List RawDescriptor)

/-- 30_encoding.md R72. -/
theorem bodyLength_mem_bodyLengths : bodyLength cmd ∈ bodyLengths := by
  cases cmd with
  | time c => cases h : c.specified <;> simp [bodyLength, spliceTimeLength, bodyLengths, h]
  | insert c =>
    simp only [bodyLength, bodyLengthSI, spliceTimeLength]
    generalize spliceTimePresent c = present
    cases c.spliceEventCancelIndicator <;> cases present <;> cases c.spliceTime.specified <;> cases c.durationFlag <;>
      decide

/-- A field of the header, read in the whole section. -/
theorem fieldAt_sectionImage {a n : Nat} (h : a + n ≤ 18) :
    fieldAt (sectionImage p s cmd ds) a n =
      fieldAt (headerImage p s (19 + bodyLength cmd + descLength ds) (bodyLength cmd) (descLength ds)) a n := by
  simp only [sectionImage, coveredImage, List.append_assoc, bodyImage_length, loopImage_length]
  exact fieldAt_append_left (by simpa using h) _

/-- 40_section_encoder.md R99. -/
theorem sectionImage_lengthFieldsOk : lengthFieldsOk (sectionImage p s cmd ds) := by
  have hcl : bodyLength cmd % 2 ^ 12 = bodyLength cmd :=
    Nat.mod_eq_of_lt ((show ∀ n ∈ bodyLengths, n < 2 ^ 12 by decide) _ (bodyLength_mem_bodyLengths cmd))
  refine ⟨bodyLength cmd, descLength ds, bodyLength_mem_bodyLengths cmd, sectionImage_length p s cmd ds, ?_, ?_, ?_⟩
  · rw [fieldAt_sectionImage p s cmd ds (by decide), headerImage_sectionLength]
  · rw [fieldAt_sectionImage p s cmd ds (by decide), headerImage_commandLength, hcl]
  · rw [fieldAt_sectionImage p s cmd ds (by decide), headerImage_loopLength]

/-- 30_encoding.md R71. -/
theorem sectionImage_reservedBitsOk : reservedBitsOk (sectionImage p s cmd ds) := by
  have hfield {a : Nat} (ha : a + 1 ≤ 18) := fieldAt_sectionImage p s cmd ds ha
  rw [reservedBitsOk, hfield (by decide), hfield (by decide), hfield (by decide), hfield (by decide)]
  exact headerImage_reservedBitsOk ..

/-- 41_crc_and_views.md R112. -/
theorem sectionImage_crcOk : crcOk (sectionImage p s cmd ds) := by
  have hlen : (sectionImage p s cmd ds).length - 4 = (coveredImage p s cmd ds).length := by simp; omega
  have hcovered : (sectionImage p s cmd ds).take (coveredImage p s cmd ds).length = coveredImage p s cmd ds :=
    List.take_left
  have htrailer : ((sectionImage p s cmd ds).drop (coveredImage p s cmd ds).length).take 4 =
      beBytes 4 (crc32 (coveredImage p s cmd ds)).toNat := by
    rw [sectionImage, List.drop_left, List.take_of_length_le (by simp)]
  refine ⟨by simp; omega, ?_⟩
  rw [hlen, hcovered, fieldAt_of_beBytes htrailer (crc32 _).isLt]

theorem sectionOk_sectionImage : SectionOk (sectionImage p s cmd ds) where
  lengths  := sectionImage_lengthFieldsOk p s cmd ds
  reserved := sectionImage_reservedBitsOk p s cmd ds
  crc      := sectionImage_crcOk p s cmd ds

end sectionImage

end Sys2Proof.Machine
end

section
/-! What an operation that answers a next state leaves, said once for all seven (10_state.md R22, R24). -/

namespace Sys2Proof.Machine

/-! ## Each operation as one equation -/

/-- 42_cue_generator.md R122: the id and what drawing it does to `SEQ`. -/
theorem State.resolveEventId_eq (cue : CueCommand) (s : State) :
    s.resolveEventId cue = (cueId cue s, { s with seq := cueSeq cue s }) := by
  unfold State.resolveEventId cueId cueSeq
  split <;> rfl

/-- 42_cue_generator.md R129: the response of a GEN operation, whole. -/
theorem respondCue_rsp (op : Byte) (cue : CueCommand) (id : U32) (c : SpliceInsert) (s : State) :
    (respondCue op cue id c s).rsp =
      ⟨errNone, (sectionImage s.params fixedHeader (.insert c) []).length,
        some (sectionImage s.params fixedHeader (.insert c) []), some id, some s.nowS, some ⟨op, cue⟩⟩ := by
  simp [respondCue]

theorem exec_genOut (cue : CueCommand) (s : State) : exec (.genOut cue) s = .next (respondCue opGenOut cue (cueId cue s)
    (cueOutCommand (cueId cue s) s.nowS (adSeconds cue)) { s with seq := cueSeq cue s }) := by
  rw [exec, execGenOut_eq, State.resolveEventId_eq]

theorem exec_genIn (cue : CueCommand) (s : State) : exec (.genIn cue) s = .next (respondCue opGenIn cue (cueId cue s)
    (cueInCommand (cueId cue s) s.nowS) { s with seq := cueSeq cue s }) := by
  rw [exec, execGenIn_eq, State.resolveEventId_eq]

theorem exec_genCrash (cue : CueCommand) (s : State) : exec (.genCrash cue) s = .next (respondCue opGenCrash cue (cueId cue s)
    (crashOutCommand (cueId cue s)) { s with seq := cueSeq cue s }) := by
  rw [exec, execGenCrash_eq, State.resolveEventId_eq]

theorem exec_seqNext (s : State) :
    exec .seqNext s = .next ({ s with seq := s.seq + 1 }.respond ⟨errNone, 0, none, some s.seq, none, none⟩) :=
  execSeqNext_eq s

theorem exec_seqReset (seed : U32) (s : State) :
    exec (.seqReset seed) s = .next ({ s with seq := seed }.respond ⟨errNone, 0, none, none, none, none⟩) :=
  execSeqReset_eq seed s

theorem exec_encInstr (sec : SectionFields) (cmd : SpliceCommand) (ds : List Descriptor) (s : State) :
    exec (encInstr sec cmd ds) s = encodeOperation sec cmd ds s := by
  cases cmd <;> rfl

/-! ## Everything an operation can leave -/

theorem IsCue.isGen {cue : CueCommand} {i : Instr} {op : Byte} (h : IsCue cue i op) : isGen i = true := by cases h <;> rfl

theorem IsCue.listed {cue : CueCommand} {i : Instr} {op : Byte} (h : IsCue cue i op) :
    op ∈ [opGenOut, opGenIn, opGenCrash] := by
  cases h <;> simp

theorem completion_of_encInstr {sec : SectionFields} {cmd : SpliceCommand} {ds : List Descriptor} {s t : State}
    (h : exec (encInstr sec cmd ds) s = .next t) : Completion s (encInstr sec cmd ds) t := by
  rw [exec_encInstr] at h
  rcases encodeOperation_cases sec cmd ds s with ⟨_, he⟩ | ⟨d, _, _, he⟩ | ⟨d, b, _, hfits, rfl, he⟩ <;> rw [he] at h <;> cases h
  · exact .malformed sec cmd ds
  · rw [encodeSection_eq_ofBytes, Buffer.ofBytes_wp, Buffer.ofBytes_contents]
    exact .encoded sec cmd ds d (by simpa using hfits)

/-- An operation that answers a next state leaves one of these. -/
theorem completion_of_exec {i : Instr} {s t : State} (h : exec i s = .next t) : Completion s i t := by
  cases i with
  | encSi sec c ds => exact completion_of_encInstr (cmd := .insert c) h
  | encTs sec c ds => exact completion_of_encInstr (cmd := .time c) h
  | genOut cue => cases (exec_genOut cue s).symm.trans h; exact .generated .out _
  | genIn cue => cases (exec_genIn cue s).symm.trans h; exact .generated .back _
  | genCrash cue => cases (exec_genCrash cue s).symm.trans h; exact .generated .crash _
  | seqNext => cases (exec_seqNext s).symm.trans h; exact .drawn
  | seqReset seed => cases (exec_seqReset seed s).symm.trans h; exact .reseeded seed

section Completion
variable {i : Instr} {s t : State}

/-- 10_state.md R24, R30: no operation writes a strap. -/
theorem Completion.params_eq (h : Completion s i t) : t.params = s.params := by cases h <;> rfl

/-- Which events are still to come is not the operations' affair (log 2). -/
theorem Completion.events_eq (h : Completion s i t) : t.events = s.events := by cases h <;> rfl

/-- 20_memory.md R31, R48: an operation drops the working buffer, or leaves it as it was (SEQ). -/
theorem Completion.buf_empty (h : Completion s i t) (hbuf : s.buf = Buffer.empty) : t.buf = Buffer.empty := by
  cases h with
  | drawn | reseeded => exact hbuf
  | _ => rfl

end Completion

end Sys2Proof.Machine
end

section
/-! The block's invariant (10_state.md R22, R24, R26; 60_exceptions.md R151, R152). -/

namespace Sys2Proof.Machine

/-- A response without bytes: of reset, of SEQ, and of an error. -/
theorem responseOk_noBytes (p : Params) {err : BitVec 2} {evid : Option U32} (hcode : err ≠ 3) (hevid : err ≠ 0 → evid = none) :
    ResponseOk p ⟨err, 0, none, evid, none, none⟩ where
  code    := hcode
  count   := rfl
  fits    := Nat.zero_le _
  bytes   := by simp
  failed  := fun h => ⟨rfl, hevid h, rfl, rfl⟩
  stamped := rfl
  cue     := by simp
  echoed  := by simp

/-- The response of an ENC operation that completes. -/
theorem responseOk_section {p : Params} {l : List Byte} (hok : SectionOk l) (hfits : l.length ≤ p.obufSize) :
    ResponseOk p ⟨errNone, l.length, some l, none, none, none⟩ where
  code    := show errNone ≠ 3 by decide
  count   := rfl
  fits    := hfits
  bytes   := by simpa using hok
  failed  := fun h => absurd rfl h
  stamped := rfl
  cue     := by simp
  echoed  := by simp

/-- The response of a GEN operation. -/
theorem responseOk_cue {p : Params} {l : List Byte} (hok : SectionOk l) (hlen : l.length ≤ 43) (hfits : l.length ≤ p.obufSize)
    {op : Byte} (hop : op ∈ [opGenOut, opGenIn, opGenCrash]) (cue : CueCommand) (id now : U32) :
    ResponseOk p ⟨errNone, l.length, some l, some id, some now, some ⟨op, cue⟩⟩ where
  code    := show errNone ≠ 3 by decide
  count   := rfl
  fits    := hfits
  bytes   := by simpa using hok
  failed  := fun h => absurd rfl h
  stamped := rfl
  cue     := fun _ => ⟨rfl, rfl, hlen⟩
  echoed  := by simpa using hop

theorem errorCode_ne_three (e : ErrorKind) : errorCode e ≠ 3 := by cases e <;> decide

theorem errorCode_ne_zero (e : ErrorKind) : errorCode e ≠ 0 := by cases e <;> decide

/-- 30_encoding.md R72, 42_cue_generator.md R126: with no descriptor a section has at most 43 bytes. -/
theorem sectionImage_nil_length_le (p : Params) (s : SectionFields) (cmd : SpliceCommand) :
    (sectionImage p s cmd []).length ≤ 43 := by
  have hbody : bodyLength cmd ≤ 21 := (show ∀ n ∈ bodyLengths, n ≤ 21 by decide) _ (bodyLength_mem_bodyLengths cmd)
  rw [sectionImage_length, descLength]
  omega

theorem Params.wellFormed_iff {p : Params} : p.wellFormed = true ↔ 43 ≤ p.obufSize := by simp [Params.wellFormed]

/-- What an operation answers is a response the invariant admits. -/
theorem Completion.responseOk {i : Instr} {s t : State} (h : Completion s i t) (hstraps : s.params.wellFormed = true) :
    ResponseOk s.params t.rsp := by
  cases h with
  | malformed => exact responseOk_noBytes _ (by decide) fun _ => rfl
  | encoded sec cmd ds d fits => exact responseOk_section (sectionOk_sectionImage ..) fits
  | generated gen c =>
    have hlen := sectionImage_nil_length_le s.params fixedHeader (.insert c)
    rw [respondCue_rsp]
    exact responseOk_cue (sectionOk_sectionImage ..) hlen (hlen.trans (Params.wellFormed_iff.1 hstraps)) gen.listed _ _ _
  | drawn => exact responseOk_noBytes _ (by decide) fun h => absurd rfl h
  | reseeded => exact responseOk_noBytes _ (by decide) fun _ => rfl

/-- Every operation that answers a next state keeps the invariant. -/
theorem exec_keeps_blockInv {i : Instr} {s t : State} (hinv : BlockInv s) (h : exec i s = .next t) : BlockInv t := by
  have hdone := completion_of_exec h
  exact ⟨hdone.params_eq ▸ hinv.straps, hdone.params_eq ▸ hdone.responseOk hinv.straps, hdone.buf_empty hinv.buffer⟩

/-- So does raising an error. -/
theorem raiseError_keeps_blockInv {s : State} (hinv : BlockInv s) (e : ErrorKind) : BlockInv (s.raiseError e) :=
  ⟨hinv.straps, responseOk_noBytes _ (errorCode_ne_three e) fun _ => rfl, rfl⟩

/-- So does a reset between operations. -/
theorem powerUp_keeps_blockInv {s : State} (hinv : BlockInv s) : BlockInv s.powerUp :=
  ⟨hinv.straps, responseOk_noBytes _ (by decide) fun _ => rfl, rfl⟩

/-- The invariant does not speak of the input side (log 2, log 4). -/
theorem blockInv_of_inputs {s : State} (hinv : BlockInv s) (events : List Event) (nowS : U32) :
    BlockInv { s with events := events, nowS := nowS } :=
  ⟨hinv.straps, hinv.response, hinv.buffer⟩

/-- Settles O56: idle, a reset, an operation and an error each keep the invariant. -/
theorem stepKeepsInvariant : Obligations.StepKeepsInvariant := by
  intro s t hinv hstep
  rcases step_cases s with ⟨_, he⟩ | ⟨rest, _, he⟩ | ⟨c, now, rest, i, _, _, he⟩ | ⟨c, now, rest, r, _, _, he⟩ <;> rw [he] at hstep
  · cases hstep
    exact hinv
  · cases hstep
    exact powerUp_keeps_blockInv (blockInv_of_inputs hinv rest s.nowS)
  · exact exec_keeps_blockInv (blockInv_of_inputs hinv rest now) hstep
  · cases hstep
    exact raiseError_keeps_blockInv (blockInv_of_inputs hinv rest now) _

/-- Settles O55: the latch reset leaves has no bytes, and the straps are the ones given. -/
theorem invariantHoldsAtReset : Obligations.InvariantHoldsAtReset := by
  have hreset : ∀ p : Params, p.wellFormed = true → BlockInv (State.resetWith p) := fun p hp =>
    ⟨hp, responseOk_noBytes _ (by decide) fun _ => rfl, rfl⟩
  exact ⟨hreset Params.standard (by decide), hreset⟩

end Sys2Proof.Machine
end

section
/-! Proofs of the statements of 10_state.md about `SEQ`, the straps and independence. -/

namespace Sys2Proof.Machine

/-- Settles O5: the reset state, field by field. -/
theorem resetStateValues : Obligations.ResetStateValues := ⟨rfl, rfl, rfl, rfl, rfl⟩

/-! ## `SEQ`, the straps and the events -/

/-- Settles O13: by what each operation leaves; a GEN operation leaves `SEQ` as resolving the id left it. -/
theorem onlyDrawsAndReseedsMoveSeq : Obligations.OnlyDrawsAndReseedsMoveSeq := by
  intro i s t h
  cases completion_of_exec h with
  | malformed sec cmd ds => cases cmd <;> rfl
  | encoded sec cmd ds d _ => cases cmd <;> rfl
  | generated gen c => cases gen <;> rfl
  | drawn => rfl
  | reseeded seed => rfl

/-- Settles O53: around the operation a step only takes the event, and no operation, error or reset writes a strap. -/
theorem noStepChangesTheStraps : Obligations.NoStepChangesTheStraps := by
  intro s t hstep
  rcases step_cases s with ⟨hev, he⟩ | ⟨rest, hev, he⟩ | ⟨c, now, rest, i, hev, _, he⟩ | ⟨c, now, rest, r, hev, _, he⟩ <;>
    rw [he] at hstep
  · cases hstep
    simp [hev]
  · cases hstep
    simp [hev]
  · have hdone := completion_of_exec hstep
    simp [hdone.params_eq, hdone.events_eq, hev]
  · cases hstep
    simp [hev]

/-! ## What an operation does not depend on -/

/-- 40_section_encoder.md R95: two commands with the same body bytes give the same operation. -/
theorem encodeOperation_congr {cmd cmd' : SpliceCommand} {s : State} (h : bodyImage s.params cmd = bodyImage s.params cmd')
    (sec : SectionFields) (ds : List Descriptor) : encodeOperation sec cmd ds s = encodeOperation sec cmd' ds s := by
  have hlen : bodyLength cmd = bodyLength cmd' := by rw [← bodyImage_length s.params, h, bodyImage_length]
  simp only [encodeOperation, encodeSection_eq_ofBytes, hlen, sectionImage_congr h]

/-- A time that is not specified is one byte, whatever the wires hold (40_section_encoder.md R89). -/
theorem spliceTimeImage_unspecified (p : Params) (pts : U33) : spliceTimeImage p false pts = [0x00] := rfl

/-- Settles O31: each wire of an absent part is out of the body's bytes, and the body's bytes decide the operation. -/
theorem absentSubstructuresDoNotShow : Obligations.AbsentSubstructuresDoNotShow := by
  intro sec c ts ds s t b pts
  refine ⟨fun hflag => encodeOperation_congr ?_ sec ds, fun htime => encodeOperation_congr ?_ sec ds,
    fun hbreak => encodeOperation_congr ?_ sec ds, fun htime => encodeOperation_congr ?_ sec ds⟩
  · have habsent : spliceTimePresent c = false := by
      rcases hflag with h | h <;> simp [spliceTimePresent, h]
    have habsent' : spliceTimePresent { c with spliceTime := t } = false := habsent
    simp [bodyImage, spliceInsertImage, insertFlagsByte, habsent, habsent']
  · simp [bodyImage, spliceInsertImage, insertFlagsByte, spliceTimePresent, spliceTimeImage_unspecified, htime]
  · simp [bodyImage, spliceInsertImage, insertFlagsByte, spliceTimePresent, hbreak]
  · simp [bodyImage, spliceTimeImage_unspecified, htime]

/-- 10_state.md R22, R23: no operation reads the response latch. -/
theorem exec_with_rsp (i : Instr) (s : State) (r : Response) : exec i { s with rsp := r } = exec i s := by
  cases i with
  | encSi | encTs | seqNext | seqReset => rfl
  | genOut cue => rw [exec_genOut, exec_genOut]; rfl
  | genIn cue => rw [exec_genIn, exec_genIn]; rfl
  | genCrash cue => rw [exec_genCrash, exec_genCrash]; rfl

/-- 20_memory.md R48: what the working buffer held does not reach an encoding. -/
theorem encodeOperation_with_buf (sec : SectionFields) (cmd : SpliceCommand) (ds : List Descriptor) (s : State) (b : Buffer) :
    encodeOperation sec cmd ds { s with buf := b } = encodeOperation sec cmd ds s := by
  simp only [encodeOperation, encodeSection_eq_ofBytes]
  rfl

/-- ... nor a GEN operation's section. -/
theorem respondCue_with_buf (op : Byte) (cue : CueCommand) (id : U32) (c : SpliceInsert) (s : State) (b : Buffer) :
    respondCue op cue id c { s with buf := b } = respondCue op cue id c s := by
  simp only [respondCue, encodeSection_eq_ofBytes]
  rfl

/-- 20_memory.md R31, R48: an operation that uses the working buffer does not depend on what it held. -/
theorem exec_with_buf {i : Instr} (huses : (isEnc i || isGen i) = true) (s : State) (b : Buffer) :
    exec i { s with buf := b } = exec i s := by
  cases i with
  | encSi sec c ds => exact encodeOperation_with_buf sec (.insert c) ds s b
  | encTs sec c ds => exact encodeOperation_with_buf sec (.time c) ds s b
  | genOut cue =>
    rw [exec_genOut, exec_genOut]
    exact congrArg _ (respondCue_with_buf _ _ _ _ { s with seq := cueSeq cue s } b)
  | genIn cue =>
    rw [exec_genIn, exec_genIn]
    exact congrArg _ (respondCue_with_buf _ _ _ _ { s with seq := cueSeq cue s } b)
  | genCrash cue =>
    rw [exec_genCrash, exec_genCrash]
    exact congrArg _ (respondCue_with_buf _ _ _ _ { s with seq := cueSeq cue s } b)
  | seqNext | seqReset => cases huses

/-- 10_state.md R26: the response and `SEQ` of any operation do not depend on it; SEQ hands the buffer on. -/
theorem exec_response_with_buf {i : Instr} {s t t' : State} {b : Buffer} (h : exec i { s with buf := b } = .next t)
    (h' : exec i s = .next t') : t.rsp = t'.rsp ∧ t.seq = t'.seq := by
  by_cases huses : (isEnc i || isGen i) = true
  · rw [exec_with_buf huses, h'] at h
    cases h
    exact ⟨rfl, rfl⟩
  · cases i with
    | seqNext | seqReset => cases h; cases h'; exact ⟨rfl, rfl⟩
    | _ => exact absurd rfl huses

/-- Settles O52: neither the latch nor the buffer is read, and an error changes nothing else. -/
theorem noResultDependsOnTheLastResponse : Obligations.NoResultDependsOnTheLastResponse := by
  intro i s r b
  refine ⟨exec_with_rsp i s r, fun t t' h h' => exec_response_with_buf h h', fun e hbuf => ?_⟩
  have herror : s.raiseError e = { s with rsp := ⟨errorCode e, 0, none, none, none, none⟩ } := by
    obtain ⟨seq, rsp, buf, params, events, nowS⟩ := s
    cases hbuf
    rfl
  rw [herror, exec_with_rsp]

end Sys2Proof.Machine
end

section
/-! What a host reads (10_state.md R22, R24, R27; 60_exceptions.md R151). -/

namespace Sys2Proof.Machine

/-! ## A read, by the latch's field -/

@[simp] theorem readField_eq_ok_iff {α : Type} {o : Option α} {v : α} : readField o = .ok v ↔ o = some v := by
  cases o <;> simp [readField]

theorem exists_readField_eq_ok_iff {α : Type} {o : Option α} : (∃ v, readField o = .ok v) ↔ o.isSome = true := by
  simp [Option.isSome_iff_exists]

/-- 10_state.md R22: an output byte, where `OLEN` says there is one. -/
theorem State.hostObuf_eq_ok_iff {s : State} {j : Nat} {b : Byte} :
    s.hostObuf j = .ok b ↔ j < s.rsp.olen ∧ ∃ l, s.rsp.obuf = some l ∧ l[j]? = some b := by
  unfold State.hostObuf
  split <;> rename_i hj <;> simp [hj, Option.bind_eq_some_iff]

/-- Where `OLEN` counts the output bytes, they are readable exactly below it. -/
theorem State.exists_hostObuf_eq_ok_iff {s : State} (hcount : s.rsp.olen = (s.rsp.obuf.getD []).length) (j : Nat) :
    (∃ b, s.hostObuf j = .ok b) ↔ j < s.rsp.olen := by
  simp only [State.hostObuf_eq_ok_iff]
  refine ⟨fun ⟨_, hj, _⟩ => hj, fun hj => ?_⟩
  cases hobuf : s.rsp.obuf with
  | none => simp [hcount, hobuf] at hj
  | some l =>
    have hl : j < l.length := by simpa [hcount, hobuf] using hj
    exact ⟨l[j], hj, l, rfl, List.getElem?_eq_getElem hl⟩

/-- 10_state.md R27, 60_exceptions.md R151: with no bytes and no other field, only `ERR` and `OLEN` are readable. -/
theorem State.nothingToRead {s : State} {err : BitVec 2} (h : s.rsp = ⟨err, 0, none, none, none, none⟩) : s.NothingToRead := by
  refine ⟨fun j => ?_, ?_, ?_, ?_⟩
  · simp [State.hostObuf, h]
  · simp [State.hostEvid, readField, h]
  · simp [State.hostTstamp, readField, h]
  · simp [State.hostEcho, readField, h]

/-! ## Which operation defines which field -/

section encInstr
variable (sec : SectionFields) (cmd : SpliceCommand) (ds : List Descriptor)
@[simp] theorem isEnc_encInstr : isEnc (encInstr sec cmd ds) = true := by cases cmd <;> rfl
@[simp] theorem isGen_encInstr : isGen (encInstr sec cmd ds) = false := by cases cmd <;> rfl
@[simp] theorem encInstr_ne_seqNext : encInstr sec cmd ds ≠ .seqNext := by cases cmd <;> simp [encInstr]
end encInstr

section Completion
variable {i : Instr} {s t : State}

/-- 10_state.md R22: `OLEN` counts the output bytes. -/
theorem Completion.olen_eq (h : Completion s i t) : t.rsp.olen = (t.rsp.obuf.getD []).length := by
  cases h with
  | generated gen c => rw [respondCue_rsp]; rfl
  | _ => rfl

/-- 10_state.md R22: there are bytes after GEN, and after an ENC operation without error. -/
theorem Completion.olen_pos_iff (h : Completion s i t) :
    0 < t.rsp.olen ↔ isGen i = true ∨ (isEnc i = true ∧ t.rsp.err = 0) := by
  cases h with
  | malformed => simpa using errorCode_ne_zero .malformedDescriptorData
  | encoded => simp [errNone]
  | generated gen c => simp [gen.isGen]
  | drawn | reseeded => simp [isGen, isEnc]

/-- 10_state.md R22: `EVID`, after GEN and SEQ.NEXT. -/
theorem Completion.evid_isSome_iff (h : Completion s i t) : t.rsp.evid.isSome = true ↔ isGen i = true ∨ i = .seqNext := by
  cases h with
  | malformed | encoded => simp
  | generated gen c => simp [gen.isGen]
  | drawn | reseeded => simp [isGen]

/-- 10_state.md R22: `TSTAMP`, after GEN. -/
theorem Completion.tstamp_isSome_iff (h : Completion s i t) : t.rsp.tstamp.isSome = true ↔ isGen i = true := by
  cases h with
  | malformed | encoded => simp
  | generated gen c => simp [gen.isGen]
  | drawn | reseeded => simp [isGen]

/-- 10_state.md R22: `ECHO`, after GEN. -/
theorem Completion.echo_isSome_iff (h : Completion s i t) : t.rsp.echo.isSome = true ↔ isGen i = true := by
  cases h with
  | malformed | encoded => simp
  | generated gen c => simp [gen.isGen]
  | drawn | reseeded => simp [isGen]

end Completion

/-- Settles O47: a read answers exactly where the latch's field has a value, and each operation's latch is known. -/
theorem hostReadsOnlyDefinedFields : Obligations.HostReadsOnlyDefinedFields := by
  refine ⟨fun i s t h => ?_, fun s => ?_, fun p => ⟨rfl, rfl, State.nothingToRead rfl⟩, fun s e =>
    ⟨errorCode_ne_zero e, rfl, State.nothingToRead rfl⟩⟩
  · have hdone := completion_of_exec h
    exact ⟨State.exists_hostObuf_eq_ok_iff hdone.olen_eq, hdone.olen_pos_iff,
      exists_readField_eq_ok_iff.trans hdone.evid_isSome_iff, exists_readField_eq_ok_iff.trans hdone.tstamp_isSome_iff,
      exists_readField_eq_ok_iff.trans hdone.echo_isSome_iff⟩
  · exact ⟨rfl, rfl, fun _ _ => State.hostObuf_eq_ok_iff, fun _ => readField_eq_ok_iff, fun _ => readField_eq_ok_iff,
      fun _ => readField_eq_ok_iff⟩

end Sys2Proof.Machine
end

section
/-! What the wrapper presents (10_state.md R29; 30_encoding.md R74, R75; 93_implementation_defined.md U2, U11). -/

namespace Sys2Proof.Machine

/-! ## One number at one port -/

theorem nonNeg_iff {n : Int} : nonNeg n = true ↔ 0 ≤ n := by simp [nonNeg]

/-- 10_state.md R29: the port holds the number modulo 2^w. -/
theorem presents_portValue (w : Nat) {n : Int} (h : nonNeg n = true) : Presents (portValue w n) n := by
  have hn := nonNeg_iff.1 h
  refine ⟨hn, ?_⟩
  rw [portValue, BitVec.toNat_ofNat, Int.natCast_mod, Int.toNat_of_nonneg hn]
  simp

/-- 30_encoding.md R74: an optional number and its `Valid` bit. -/
theorem presentsOption_portOption (w : Nat) {n : Option Int} (h : nonNegOpt n = true) :
    PresentsOption (portOption w n).1 (portOption w n).2 n := by
  cases n with
  | none => rfl
  | some n => exact ⟨rfl, presents_portValue w h⟩

/-- 30_encoding.md R62, R73 (c): the low 32 bits of a 33-bit port, and its overflow bit. -/
theorem low32_toNat_of_presents {v : U33} {n : Int} (h : Presents v n) : ((low32 v).toNat : Int) = n % 2 ^ 32 := by
  obtain ⟨_, hv⟩ := h
  rw [low32, BitVec.toNat_setWidth]
  omega

theorem ovf_iff_of_presents {v : U33} {n : Int} (h : Presents v n) {p : Params} (hp : p.legacyOvf = false) :
    ovf p v = true ↔ n / 2 ^ 32 % 2 = 1 := by
  obtain ⟨_, hv⟩ := h
  have hbit : ovf p v = true ↔ v.toNat / 2 ^ 32 % 2 = 1 := by
    simp [ovf, hp, BitVec.getLsbD, Nat.testBit_eq_decide_div_mod_eq]
  rw [hbit]
  omega

/-! ## Records -/

theorem presentsSection_portSection {s : SourceSection} (h : s.nonNegative = true) : PresentsSection (portSection s) s := by
  simp only [SourceSection.nonNegative, Bool.and_eq_true] at h
  obtain ⟨⟨⟨⟨⟨⟨⟨⟨hid, hver⟩, halg⟩, hpts⟩, hcw⟩, htier⟩, htype⟩, _⟩, _⟩ := h
  exact ⟨presents_portValue 8 hid, rfl, rfl, presents_portValue 8 hver, rfl, presents_portValue 6 halg, presents_portValue 33 hpts,
    presents_portValue 8 hcw, presents_portValue 12 htier, presents_portValue 8 htype⟩

theorem presentsInsert_portInsert {c : SourceSpliceInsert} (h : c.nonNegative = true) (hfits : c.consistent = true) :
    PresentsInsert (portInsert c) c := by
  simp only [SourceSpliceInsert.nonNegative, Bool.and_eq_true] at h
  obtain ⟨⟨⟨⟨⟨hid, htime⟩, hbreak⟩, hprog⟩, havail⟩, hexp⟩ := h
  refine ⟨presents_portValue 32 hid, rfl, rfl, rfl, rfl, rfl, fun t ht => ?_, fun d hd => ?_, presents_portValue 16 hprog,
    presents_portValue 8 havail, presents_portValue 8 hexp, fun hcancel => ?_⟩
  · rw [ht] at htime
    rw [portInsert, ht]
    exact ⟨rfl, presents_portValue 33 htime⟩
  · rw [hd] at hbreak
    rw [portInsert, hd]
    exact ⟨rfl, presents_portValue 33 hbreak⟩
  · simp only [SourceSpliceInsert.consistent, hcancel, Bool.false_or, Bool.and_eq_true, beq_iff_eq] at hfits
    obtain ⟨hbreakFlag, htimeFlag⟩ := hfits
    exact ⟨by simp [htimeFlag], by simp [hbreakFlag]⟩

theorem presentsDescriptors_portDescriptor {ds : List SourceDescriptor} (h : ds.all (fun d => nonNeg d.tag) = true) :
    List.Forall₂ (fun (p : Descriptor) (d : SourceDescriptor) => Presents p.tag d.tag ∧ p.form = d.form ∧ p.data = d.data)
      (ds.map portDescriptor) ds := by
  rw [List.forall₂_map_left_iff, List.forall₂_same]
  exact fun d hd => ⟨presents_portValue 8 (List.all_eq_true.1 h d hd), rfl, rfl⟩

/-! ## Calls -/

/-- 30_encoding.md R75, 93_implementation_defined.md U2, U11: the wrapper's two checks decide, and an accepted call is expanded. -/
theorem expandCall_eq_ok_iff {call : SourceCall} {c : Command} :
    expandCall call = .ok c ↔ (call.nonNegative = true ∧ call.consistent = true) ∧ commandOfCall call = c := by
  unfold expandCall
  cases call.nonNegative <;> cases call.consistent <;> simp

theorem commandOfCall_spliceInsert {s : SourceSection} {r : SourceSpliceInsert} (h : s.spliceCommand = .spliceInsert r) :
    commandOfCall (.encodeSection s) =
      encode (.encSi (portSection s) (portInsert r) (s.descriptors.map portDescriptor)) := by
  simp [commandOfCall, expandSection, h]

theorem commandOfCall_timeSignal {s : SourceSection} {specified : Bool} {pts : Int}
    (h : s.spliceCommand = .timeSignal specified pts) :
    commandOfCall (.encodeSection s) =
      encode (.encTs (portSection s) ⟨specified, portValue 33 pts⟩ (s.descriptors.map portDescriptor)) := by
  simp [commandOfCall, expandSection, h]

/-- 30_encoding.md R75: the command of a section, by its splice command's variant. -/
theorem presentsCall_section {s : SourceSection} (h : s.nonNegative = true) (hfits : s.consistent = true) :
    PresentsCall (commandOfCall (.encodeSection s)) (.encodeSection s) := by
  have hsect := presentsSection_portSection h
  simp only [SourceSection.nonNegative, Bool.and_eq_true] at h
  obtain ⟨⟨_, hds⟩, hcmd⟩ := h
  have hloop := presentsDescriptors_portDescriptor hds
  cases hvar : s.spliceCommand with
  | spliceInsert r =>
    rw [hvar] at hcmd
    rw [SourceSection.consistent, hvar] at hfits
    rw [commandOfCall_spliceInsert hvar, PresentsCall, hvar]
    exact ⟨hsect, hloop, rfl, presentsInsert_portInsert hcmd hfits⟩
  | timeSignal specified pts =>
    rw [hvar] at hcmd
    rw [commandOfCall_timeSignal hvar, PresentsCall, hvar]
    exact ⟨hsect, hloop, rfl, rfl, presents_portValue 33 hcmd⟩

theorem presentsCall_commandOfCall {call : SourceCall} (h : call.nonNegative = true) (hfits : call.consistent = true) :
    PresentsCall (commandOfCall call) call := by
  cases call with
  | encodeSection s => exact presentsCall_section h hfits
  | generateCue t eventId adDuration preRoll =>
    simp only [SourceCall.nonNegative, Bool.and_eq_true] at h
    obtain ⟨⟨hid, had⟩, hpre⟩ := h
    exact ⟨presentsOption_portOption 32 hid, presentsOption_portOption 32 had, presentsOption_portOption 8 hpre⟩
  | next => rfl
  | reset seed => exact ⟨rfl, presents_portValue 32 h⟩

/-- Settles O46: an accepted call is the expansion of one that passed both checks, and the expansion presents it port by port. -/
theorem wrapperPresentsLowBits : Obligations.WrapperPresentsLowBits := by
  refine ⟨fun call c hc => ?_, fun call => ?_, fun v n h => ⟨low32_toNat_of_presents h, fun p hp => ovf_iff_of_presents h hp⟩⟩
  · obtain ⟨⟨hneg, hfits⟩, rfl⟩ := expandCall_eq_ok_iff.1 hc
    exact presentsCall_commandOfCall hneg hfits
  · simp [expandCall_eq_ok_iff]

end Sys2Proof.Machine
end

section
/-! The working buffer over any memory, and the capacity of the output (20_memory.md R33 to R35, R41). -/

namespace Sys2Proof.Machine

/-! ## Every section fits -/

/-- Any output is a section of the layout; an ENC section passed the capacity test, a GEN section has no descriptor. -/
theorem Outputs.exists_sectionImage {i : Instr} {s : State} {l : List Byte} (h : Outputs i s l) :
    ∃ sec cmd d, l = sectionImage s.params sec cmd d ∧ l.length ≤ max s.params.obufSize 43 := by
  obtain ⟨t, hexec, hobuf⟩ := h
  cases completion_of_exec hexec with
  | malformed | drawn | reseeded => cases hobuf
  | encoded sec cmd ds d fits =>
    cases hobuf
    exact ⟨sec, cmd, d, rfl, le_max_of_le_left fits⟩
  | generated gen c =>
    rw [respondCue_rsp] at hobuf
    cases hobuf
    exact ⟨fixedHeader, .insert c, [], rfl, le_max_of_le_right (sectionImage_nil_length_le ..)⟩

/-- Settles O27: a section of at most 4098 bytes has at most 4095 from offset 3 on, which 12 bits hold. -/
theorem defaultCapacityNeverTruncates : Obligations.DefaultCapacityNeverTruncates := by
  intro i s l hcap hout
  obtain ⟨sec, cmd, d, rfl, hlen⟩ := hout.exists_sectionImage
  obtain ⟨cl, dl, _, hcount, hfield, _⟩ := sectionImage_lengthFieldsOk s.params sec cmd d
  have hle : (sectionImage s.params sec cmd d).length ≤ 4098 := hlen.trans (max_le hcap (by decide))
  have hfits : 19 + cl + dl < 2 ^ 12 := by omega
  refine ⟨hle, ?_⟩
  rw [hfield, Nat.mod_eq_of_lt hfits, hcount]
  omega

/-! ## Byte strings in a memory -/

/-- Writing a byte string leaves every offset outside it alone. -/
theorem Memory.read_writeBytes_outside {bs : List Byte} {a c : Nat} (hc : c < a ∨ a + bs.length ≤ c) (m : Memory) :
    (m.writeBytes a bs).read c = m.read c := by
  induction bs generalizing m a with
  | nil => rfl
  | cons b t ih =>
    simp only [List.length_cons] at hc
    rw [Memory.writeBytes, ih (by omega), Memory.read_write_other b (by omega)]

/-- Reading inside a byte string just written gives its bytes. -/
theorem Memory.read_writeBytes_inside {bs : List Byte} {i : Nat} (hi : i < bs.length) (m : Memory) (a : Nat) :
    (m.writeBytes a bs).read (a + i) = bs[i]? := by
  induction bs generalizing m a i with
  | nil => simp at hi
  | cons b t ih =>
    cases i with
    | zero =>
      rw [Memory.writeBytes, Memory.read_writeBytes_outside (by omega)]
      exact Memory.read_write_same m a b
    | succ i =>
      rw [Memory.writeBytes, ← Nat.succ_add_eq_add_succ a i]
      exact ih (Nat.lt_of_succ_lt_succ hi) _ (a + 1)

/-- Consecutive offsets that hold the bytes of `bs` read as `bs`. -/
theorem Memory.readBytes_eq_some {m : Memory} {bs : List Byte} {a : Nat} (h : ∀ i < bs.length, m.read (a + i) = bs[i]?) :
    m.readBytes a bs.length = some bs := by
  induction bs generalizing a with
  | nil => rfl
  | cons b t ih =>
    have hhead : m.read a = some b := h 0 (Nat.zero_lt_succ _)
    have htail : m.readBytes (a + 1) t.length = some t := ih fun i hi => by
      rw [Nat.succ_add_eq_add_succ]
      exact h (i + 1) (Nat.succ_lt_succ hi)
    rw [List.length_cons, Memory.readBytes, hhead, htail]

/-- A byte string just written reads back. -/
theorem Memory.readBytes_writeBytes (m : Memory) (a : Nat) (bs : List Byte) :
    (m.writeBytes a bs).readBytes a bs.length = some bs :=
  Memory.readBytes_eq_some fun _ hi => Memory.read_writeBytes_inside hi m a

/-! ## `Append`, `MemWrite` and `MemRead` -/

/-- 00_scope.md R9: byte `i` of an `n`-byte big-endian image, counted from the most significant. -/
theorem beBytes_getElem? {n i : Nat} (hi : i < n) (v : Nat) :
    (beBytes n v)[i]? = some (BitVec.ofNat 8 (v / 2 ^ (8 * (n - i - 1)) % 256)) := by
  induction n generalizing i with
  | zero => simp at hi
  | succ n ih =>
    cases i with
    | zero => simp [beBytes, Nat.shiftRight_eq_div_pow, ← BitVec.toNat_inj]
    | succ i =>
      rw [Nat.succ_sub_succ]
      exact ih (Nat.lt_of_succ_lt_succ hi)

/-- Settles O39: `Append` writes the big-endian image at `wp`. -/
theorem appendWritesBigEndian : Obligations.AppendWritesBigEndian := by
  intro b n v _ _
  refine ⟨rfl, fun i hi => ?_, fun a ha => ?_⟩
  · calc (b.append n v).mem.read (b.wp + i)
        = (beBytes n v)[i]? := Memory.read_writeBytes_inside (by simpa using hi) b.mem b.wp
      _ = _ := beBytes_getElem? hi v
  · exact Memory.read_writeBytes_outside (by simpa using ha) b.mem

/-- Settles O40: the image written reads back, and its value is `v`. -/
theorem memReadAfterMemWrite : Obligations.MemReadAfterMemWrite := by
  intro b addr n v hv
  have himage : (b.mem.writeBytes addr (beBytes n v)).readBytes addr n = some (beBytes n v) := by
    simpa using Memory.readBytes_writeBytes b.mem addr (beBytes n v)
  have hvalue : beValue (beBytes n v) = v := beValue_beBytes_of_lt (by rwa [Nat.pow_mul] at hv)
  refine ⟨?_, rfl, fun a ha => Memory.read_writeBytes_outside (by simpa using ha) b.mem⟩
  calc (b.memWrite addr n v).memRead addr n
      = ((b.mem.writeBytes addr (beBytes n v)).readBytes addr n).map beValue := rfl
    _ = some v := by rw [himage, Option.map_some, hvalue]

end Sys2Proof.Machine
end

section
/-! The command encoding (30_encoding.md R52 to R54): what decodes, to what, and what an unlisted opcode does. -/

namespace Sys2Proof.Machine

/-! ## What decodes -/

/-- 30_encoding.md R52: the opcode selects the operation, the operand wires fill it. -/
theorem decode_of_present {i : Instr} {o : Operands} (h : Operands.present o i) : decode ⟨opcodeOf i, o⟩ = .ok i := by
  cases i with
  | encSi | encTs => obtain ⟨rfl, rfl, rfl⟩ := h; rfl
  | genOut | genIn | genCrash | seqReset => obtain rfl := h; rfl
  | seqNext => rfl

/-- An instruction is presented with its own operand record. -/
theorem present_operandsOf (i : Instr) : Operands.present (operandsOf i) i := by
  cases i with
  | encSi | encTs => exact ⟨rfl, rfl, rfl⟩
  | genOut | genIn | genCrash | seqReset => rfl
  | seqNext => trivial

theorem opcodeOf_mem_listedOpcodes (i : Instr) : opcodeOf i ∈ listedOpcodes := by
  cases i <;> simp [opcodeOf, listedOpcodes]

/-- Every listed opcode is that of an instruction read from the wires beside it. -/
theorem exists_present_of_mem_listedOpcodes {op : Byte} (h : op ∈ listedOpcodes) (o : Operands) :
    ∃ i, op = opcodeOf i ∧ Operands.present o i := by
  simp only [listedOpcodes, List.mem_cons, List.not_mem_nil, or_false] at h
  rcases h with rfl | rfl | rfl | rfl | rfl | rfl | rfl
  · exact ⟨.encSi o.sect o.insert o.descriptors, rfl, rfl, rfl, rfl⟩
  · exact ⟨.encTs o.sect o.time o.descriptors, rfl, rfl, rfl, rfl⟩
  · exact ⟨.genOut o.cue, rfl, rfl⟩
  · exact ⟨.genIn o.cue, rfl, rfl⟩
  · exact ⟨.genCrash o.cue, rfl, rfl⟩
  · exact ⟨.seqNext, rfl, trivial⟩
  · exact ⟨.seqReset o.seed, rfl, rfl⟩

/-- 30_encoding.md R53: any other opcode is rejected by name. -/
theorem decode_of_unlisted {c : Command} (h : c.op ∉ listedOpcodes) : decode c = .error (.unlistedOpcode c.op) := by
  simp only [listedOpcodes, List.mem_cons, List.not_mem_nil, or_false, not_or] at h
  obtain ⟨h1, h2, h3, h4, h5, h6, h7⟩ := h
  simp [decode, h1, h2, h3, h4, h5, h6, h7]

/-- 30_encoding.md R52: a command decodes to the instruction whose opcode and operand record it carries, and to no other. -/
theorem decode_eq_ok_iff {c : Command} {i : Instr} : decode c = .ok i ↔ c.op = opcodeOf i ∧ Operands.present c.operands i := by
  obtain ⟨op, o⟩ := c
  refine ⟨fun h => ?_, ?_⟩
  case refine_2 =>
    rintro ⟨rfl, hpresent⟩
    exact decode_of_present hpresent
  by_cases hlisted : op ∈ listedOpcodes
  · obtain ⟨j, rfl, hpresent⟩ := exists_present_of_mem_listedOpcodes hlisted o
    cases (decode_of_present hpresent).symm.trans h
    exact ⟨rfl, hpresent⟩
  · cases (decode_of_unlisted (c := ⟨op, o⟩) hlisted).symm.trans h

/-- 30_encoding.md R53: which opcodes decode to nothing does not depend on the operand wires. -/
theorem decode_isNone (c : Command) : (decode c).toOption.isNone = decide (c.op ∉ listedOpcodes) := by
  by_cases hlisted : c.op ∈ listedOpcodes
  · obtain ⟨i, hi⟩ := exists_present_of_mem_listedOpcodes hlisted c.operands
    simp [decode_eq_ok_iff.2 hi, hlisted, Except.toOption]
  · simp [decode_of_unlisted hlisted, hlisted, Except.toOption]

/-- Settles O2: an instruction's own wires present it, an opcode selects one operation, and 7 opcodes are listed. -/
theorem decodeAndEncodeAgree : Obligations.DecodeAndEncodeAgree := by
  refine ⟨fun i => decode_of_present (present_operandsOf i), fun c i => decode_eq_ok_iff, fun o => ?_⟩
  have hunlisted : ((List.range 256).filter fun n => decide (BitVec.ofNat 8 n ∉ listedOpcodes)).length = 249 := by decide +kernel
  simpa only [decode_isNone] using hunlisted

/-- Settles O1: each byte is its operation's opcode, and the wires present what is read from them. -/
theorem sampleOpcodesDecode : Obligations.SampleOpcodesDecode := fun _ =>
  ⟨decode_of_present (i := .encSi ..) ⟨rfl, rfl, rfl⟩, decode_of_present (i := .encTs ..) ⟨rfl, rfl, rfl⟩,
    decode_of_present (i := .genOut _) rfl, decode_of_present (i := .genIn _) rfl, decode_of_present (i := .genCrash _) rfl,
    decode_of_present (i := .seqNext) trivial, decode_of_present (i := .seqReset _) rfl⟩

/-! ## What an unlisted opcode does -/

/-- Settles O4: the decoder rejects the opcode, and the step raises the error over the state with the event taken. -/
theorem unlistedOpcodeRaisesUnsupportedCommand : Obligations.UnlistedOpcodeRaisesUnsupportedCommand := by
  intro s c t rest hev hop
  rw [step_command hev, performCommand_error (decode_of_unlisted hop)]
  rfl

/-- 30_encoding.md R75: an accepted `generateCue` call presents its record beside the opcode of its cue type. -/
theorem expandCall_generateCue {t : List Byte} {eventId adDuration preRoll : Option Int} {c : Command}
    (h : expandCall (.generateCue t eventId adDuration preRoll) = .ok c) :
    c.op = (cueOpcode t).getD unlistedOpcode ∧ c.operands.cue = portCue eventId adDuration preRoll := by
  obtain ⟨_, rfl⟩ := expandCall_eq_ok_iff.1 h
  exact ⟨rfl, rfl⟩

/-- 30_encoding.md R54: any other string has no opcode. -/
theorem cueOpcode_of_unknown {t : List Byte} (h : t ∉ [cueOutString, cueInString, crashOutString]) : cueOpcode t = none := by
  simp only [List.mem_cons, List.not_mem_nil, or_false, not_or] at h
  obtain ⟨hout, hin, hcrash⟩ := h
  simp [cueOpcode, hout, hin, hcrash]

/-- Settles O45: each string selects its opcode beside the call's record, and 0x20 is not listed. -/
theorem cueTypeStringsSelectTheOpcode : Obligations.CueTypeStringsSelectTheOpcode := by
  intro t eventId adDuration preRoll c h
  obtain ⟨hop, hcue⟩ := expandCall_generateCue h
  have hknown {i : Instr} (ht : cueOpcode t = some (opcodeOf i)) (hpresent : Operands.present c.operands i) : decode c = .ok i :=
    decode_eq_ok_iff.2 ⟨by rw [hop, ht, Option.getD_some], hpresent⟩
  refine ⟨fun ht => hknown (ht ▸ rfl) hcue, fun ht => hknown (ht ▸ rfl) hcue, fun ht => hknown (ht ▸ rfl) hcue,
    fun hunknown i hdec => ?_⟩
  have hlisted := opcodeOf_mem_listedOpcodes i
  rw [← (decode_eq_ok_iff.1 hdec).1, hop, cueOpcode_of_unknown hunknown] at hlisted
  exact absurd hlisted (by decide)

end Sys2Proof.Machine
end

section
/-! What every ENC section holds, region by region (30_encoding.md R55 to R70). -/

namespace Sys2Proof.Machine

/-! ## The section of an ENC operation -/

/-- 40_section_encoder.md R95, R97: an ENC operation outputs the section of its operands with the descriptors decoded. -/
theorem Outputs.eq_sectionImage {sec : SectionFields} {cmd : SpliceCommand} {ds : List Descriptor} {s : State} {l : List Byte}
    (h : Outputs (encInstr sec cmd ds) s l) : ∃ d, decodeDescriptors ds = some d ∧ l = sectionImage s.params sec cmd d := by
  obtain ⟨t, hexec, hobuf⟩ := h
  rw [exec_encInstr] at hexec
  rcases encodeOperation_cases sec cmd ds s with ⟨_, he⟩ | ⟨d, _, _, he⟩ | ⟨d, b, hd, _, rfl, he⟩ <;> rw [he] at hexec <;>
    cases hexec
  · cases hobuf
  · rw [encodeSection_eq_ofBytes] at hobuf
    exact ⟨d, hd, by simpa using hobuf.symm⟩

/-- The same where the decoded descriptors are known. -/
theorem Outputs.eq_sectionImage_of_decode {sec : SectionFields} {cmd : SpliceCommand} {ds : List Descriptor}
    {d : List RawDescriptor} {s : State} {l : List Byte} (h : Outputs (encInstr sec cmd ds) s l)
    (hd : decodeDescriptors ds = some d) : l = sectionImage s.params sec cmd d := by
  obtain ⟨d', hd', rfl⟩ := h.eq_sectionImage
  rw [hd, Option.some_inj] at hd'
  rw [hd']

/-! ## The regions -/

section regions
variable (p : Params) (s : SectionFields) (cmd : SpliceCommand) (ds : List RawDescriptor)

/-- 30_encoding.md R70: after the header's 18 bytes, the body, the loop and the trailer. -/
theorem sectionImage_drop_header : (sectionImage p s cmd ds).drop 18 =
    bodyImage p cmd ++ (loopImage ds ++ beBytes 4 (crc32 (coveredImage p s cmd ds)).toNat) := by
  simp only [sectionImage, coveredImage, List.append_assoc]
  exact List.drop_left' (headerImage_length ..)

/-- 30_encoding.md R70: the command body stands at offset 18. -/
theorem sectionImage_body : ((sectionImage p s cmd ds).drop 18).take (bodyLength cmd) = bodyImage p cmd := by
  rw [sectionImage_drop_header]
  exact List.take_left' (bodyImage_length p cmd)

/-- 30_encoding.md R70: the descriptor loop stands after the body. -/
theorem sectionImage_loop : ((sectionImage p s cmd ds).drop (18 + bodyLength cmd)).take (descLength ds) = loopImage ds := by
  rw [← List.drop_drop, sectionImage_drop_header, List.drop_left' (bodyImage_length p cmd)]
  exact List.take_left' (loopImage_length ds)

/-- 30_encoding.md R69: what the trailer covers. -/
theorem sectionImage_covered :
    (sectionImage p s cmd ds).take (18 + bodyLength cmd + descLength ds) = coveredImage p s cmd ds :=
  List.take_left' (coveredImage_length p s cmd ds)

/-- 30_encoding.md R72: the 12 bits of the command length field hold every body length. -/
theorem bodyLength_mod : bodyLength cmd % 2 ^ 12 = bodyLength cmd :=
  Nat.mod_eq_of_lt ((show ∀ n ∈ bodyLengths, n < 2 ^ 12 by decide) _ (bodyLength_mem_bodyLengths cmd))

end regions

/-! ## Lengths, trailer and descriptor loop -/

/-- Settles O26: the header holds the counts the section was built from. -/
theorem lengthFieldsCountTheirRegions : Obligations.LengthFieldsCountTheirRegions := by
  intro sec cmd ds d s l hout hd
  obtain rfl := hout.eq_sectionImage_of_decode hd
  have hcount : (sectionImage s.params sec cmd d).length - 3 = 19 + bodyLength cmd + descLength d := by simp; omega
  refine ⟨sectionImage_length .., ?_, ?_, ?_⟩
  · rw [fieldAt_sectionImage _ _ _ _ (by decide), headerImage_sectionLength, hcount]
  · rw [fieldAt_sectionImage _ _ _ _ (by decide), headerImage_commandLength, bodyLength_mod]
  · rw [fieldAt_sectionImage _ _ _ _ (by decide), headerImage_loopLength]

/-- Settles O28: the covered bytes are the section's without its last four. -/
theorem trailerIsTheCrcOfTheRest : Obligations.TrailerIsTheCrcOfTheRest := by
  intro sec cmd ds d s l hout hd
  obtain rfl := hout.eq_sectionImage_of_decode hd
  rw [sectionImage_covered, sectionImage]

/-- Settles O33: between the body and the trailer stands the loop, each descriptor's length byte its count modulo 256. -/
theorem descriptorLoopBytes : Obligations.DescriptorLoopBytes := by
  intro sec cmd ds d s l hout hd
  obtain rfl := hout.eq_sectionImage_of_decode hd
  have hcount : (sectionImage s.params sec cmd d).length - 22 - bodyLength cmd = descLength d := by simp; omega
  have hdescriptor : descriptorImage = fun x => [x.tag, BitVec.ofNat 8 (x.data.length % 256)] ++ x.data := by
    funext x
    simp [descriptorImage, ← BitVec.toNat_inj]
  rw [hcount, sectionImage_loop, loopImage, List.flatMap_def, hdescriptor]

/-! ## 33-bit values and flags as numbers -/

@[simp] theorem boolByte_toNat (b : Bool) : (boolByte b).toNat = b.toNat := by cases b <;> rfl

/-- 30_encoding.md R62, R73 (c). -/
theorem low32_toNat (v : U33) : (low32 v).toNat = v.toNat % 2 ^ 32 := BitVec.toNat_setWidth ..

/-- 30_encoding.md R62: the overflow bit is bit 32, or 0 under `LEGACY_OVF`. -/
theorem ovf_toNat (p : Params) (v : U33) : (ovf p v).toNat = overflowBit p v := by
  have hv : v.toNat / 2 ^ 32 < 2 := by have := v.isLt; omega
  cases hp : p.legacyOvf with
  | true => simp [ovf, overflowBit, hp]
  | false =>
    rw [overflowBit, ovf, hp, if_neg Bool.false_ne_true, if_neg Bool.false_ne_true, BitVec.getLsbD,
      Nat.testBit_eq_decide_div_mod_eq]
    interval_cases v.toNat / 2 ^ 32 <;> rfl

theorem overflowBit_lt (p : Params) (v : U33) : overflowBit p v < 2 := ovf_toNat p v ▸ Bool.toNat_lt _

/-- 30_encoding.md R56. -/
theorem flagsByte_toNat (s : SectionFields) :
    (flagsByte s).toNat = 128 * s.sectionSyntaxIndicator.toNat + 64 * s.privateIndicator.toNat + 48 := by
  unfold flagsByte
  cases s.sectionSyntaxIndicator <;> cases s.privateIndicator <;> rfl

/-- The bits of a value under 2^i do not meet those of a multiple of 2^i. -/
theorem toNat_or_of_multiple {w i a : Nat} {x y : BitVec w} (hx : x.toNat = 2 ^ i * a) (hy : y.toNat < 2 ^ i) :
    (x ||| y).toNat = x.toNat + y.toNat := by
  rw [BitVec.toNat_or, hx, Nat.two_pow_add_eq_or_of_lt hy]

/-- 30_encoding.md R58. -/
theorem encryptionByte_toNat (p : Params) (s : SectionFields) : (encryptionByte p s).toNat =
    128 * s.encryptedPacket.toNat + 2 * s.encryptedAlgorithm.toNat + overflowBit p s.ptsAdjustment := by
  have halg := s.encryptedAlgorithm.isLt
  have hbit := overflowBit_lt p s.ptsAdjustment
  have hpacket : (boolByte s.encryptedPacket <<< 7).toNat = 128 * s.encryptedPacket.toNat := by
    cases s.encryptedPacket <;> rfl
  have hshift : (s.encryptedAlgorithm.setWidth 8 <<< 1).toNat = 2 * s.encryptedAlgorithm.toNat := by
    simp [BitVec.toNat_shiftLeft, Nat.shiftLeft_eq]; omega
  have hhigh := toNat_or_of_multiple (i := 7) hpacket (y := s.encryptedAlgorithm.setWidth 8 <<< 1) (by omega)
  rw [encryptionByte, toNat_or_of_multiple (i := 1) (a := 64 * s.encryptedPacket.toNat + s.encryptedAlgorithm.toNat) (by omega)
    (by rw [boolByte_toNat, ovf_toNat]; exact hbit), hhigh, hpacket, hshift, boolByte_toNat, ovf_toNat]

/-! ## The header's bytes -/

section headerBytes
variable (p : Params) (s : SectionFields) (sl cl dl : Nat)

theorem headerImage_tableId : fieldAt (headerImage p s sl cl dl) 0 1 = s.tableId.toNat :=
  fieldAt_one (by simp [headerImage])

theorem headerImage_flags : fieldAt (headerImage p s sl cl dl) 1 1 = (flagsByte s).toNat :=
  fieldAt_one (by simp [headerImage])

theorem headerImage_protocolVersion : fieldAt (headerImage p s sl cl dl) 4 1 = s.protocolVersion.toNat :=
  fieldAt_one (by simp [headerImage, beBytes])

theorem headerImage_encryption : fieldAt (headerImage p s sl cl dl) 5 1 = (encryptionByte p s).toNat :=
  fieldAt_one (by simp [headerImage, beBytes])

theorem headerImage_ptsAdjustment : fieldAt (headerImage p s sl cl dl) 6 4 = s.ptsAdjustment.toNat % 2 ^ 32 := by
  rw [← low32_toNat]
  exact fieldAt_of_beBytes (by simp [headerImage, beBytes]) (low32 s.ptsAdjustment).isLt

theorem headerImage_ptsAdjustment_high :
    fieldAt (headerImage p s sl cl dl) 6 1 = s.ptsAdjustment.toNat / 2 ^ 24 % 256 := by
  rw [fieldAt_one (b := BitVec.ofNat 8 ((low32 s.ptsAdjustment).toNat >>> 24)) (by simp [headerImage, beBytes]),
    BitVec.toNat_ofNat, Nat.shiftRight_eq_div_pow, low32_toNat]
  omega

theorem headerImage_cwIndex : fieldAt (headerImage p s sl cl dl) 10 1 = s.cwIndex.toNat :=
  fieldAt_one (by simp [headerImage, beBytes])

theorem headerImage_tier : fieldAt (headerImage p s sl cl dl) 11 2 = s.tier.toNat * 16 + 15 := by
  rw [← tierWord_toNat]
  exact fieldAt_of_beBytes (by simp [headerImage, beBytes]) (tierWord s).isLt

theorem headerImage_tier_high : fieldAt (headerImage p s sl cl dl) 11 1 = s.tier.toNat / 16 := by
  have htier := s.tier.isLt
  rw [fieldAt_one (b := BitVec.ofNat 8 ((tierWord s).toNat >>> 8)) (by simp [headerImage, beBytes]), BitVec.toNat_ofNat,
    Nat.shiftRight_eq_div_pow, tierWord_toNat]
  omega

theorem headerImage_tier_low : fieldAt (headerImage p s sl cl dl) 12 1 = s.tier.toNat % 16 * 16 + 15 := by
  rw [fieldAt_one (b := BitVec.ofNat 8 (tierWord s).toNat) (by simp [headerImage, beBytes]), BitVec.toNat_ofNat, tierWord_toNat]
  omega

theorem headerImage_spliceCommandType : fieldAt (headerImage p s sl cl dl) 15 1 = s.spliceCommandType.toNat :=
  fieldAt_one (by simp [headerImage, beBytes])

end headerBytes

/-- Settles O24: each field is read in the header. -/
theorem adjustmentAndTierFields : Obligations.AdjustmentAndTierFields := by
  intro sec cmd ds s l hout
  obtain ⟨d, _, rfl⟩ := hout.eq_sectionImage
  have hbit := overflowBit_lt s.params sec.ptsAdjustment
  have hfield {a n : Nat} (h : a + n ≤ 18) := fieldAt_sectionImage s.params sec cmd d h
  refine ⟨?_, ?_, ?_, ?_, ?_, ?_⟩
  · rw [hfield (by decide), headerImage_ptsAdjustment]
  · rw [hfield (by decide), headerImage_ptsAdjustment_high]
  · rw [hfield (by decide), headerImage_encryption, encryptionByte_toNat]
    omega
  · rw [hfield (by decide), headerImage_tier]
  · rw [hfield (by decide), headerImage_tier_high]
  · rw [hfield (by decide), headerImage_tier_low]

/-- Settles O25: each byte is read in the header. -/
theorem headerBytesHoldTheirFields : Obligations.HeaderBytesHoldTheirFields := by
  intro sec cmd ds s l hout
  obtain ⟨d, _, rfl⟩ := hout.eq_sectionImage
  have hfield {a n : Nat} (h : a + n ≤ 18) := fieldAt_sectionImage s.params sec cmd d h
  refine ⟨?_, ?_, ?_, ?_, ?_, ?_⟩
  · rw [hfield (by decide), headerImage_tableId]
  · rw [hfield (by decide), headerImage_flags, flagsByte_toNat]
  · rw [hfield (by decide), headerImage_protocolVersion]
  · rw [hfield (by decide), headerImage_encryption, encryptionByte_toNat]
  · rw [hfield (by decide), headerImage_cwIndex]
  · rw [hfield (by decide), headerImage_spliceCommandType]

end Sys2Proof.Machine
end

section
/-! The bytes of a command body (30_encoding.md R62, R64 to R66, R71). -/

namespace Sys2Proof.Machine

/-! ## The packed bytes of the body -/

/-- 30_encoding.md R62: the overflow bit as the byte it stands in alone. -/
theorem boolByte_ovf (p : Params) (v : U33) : boolByte (ovf p v) = BitVec.ofNat 8 (overflowBit p v) := by
  rw [← ovf_toNat]
  cases ovf p v <;> rfl

/-- 30_encoding.md R66. -/
theorem insertFlagsByte_toNat (c : SpliceInsert) : (insertFlagsByte c).toNat =
    128 * c.outOfNetworkIndicator.toNat + 64 * c.programSpliceFlag.toNat + 32 * c.durationFlag.toNat +
      16 * c.spliceImmediateFlag.toNat := by
  unfold insertFlagsByte
  cases c.outOfNetworkIndicator <;> cases c.programSpliceFlag <;> cases c.durationFlag <;> cases c.spliceImmediateFlag <;> rfl

/-- 30_encoding.md R65. -/
theorem breakByte_toNat (p : Params) (ar : Bool) (d : U33) :
    (breakByte p ar d).toNat = 128 * ar.toNat + overflowBit p d := by
  rw [breakByte, ← ovf_toNat]
  cases ar <;> cases ovf p d <;> rfl

/-- A byte is the byte of its value. -/
theorem eq_ofNat_of_toNat {b : Byte} {n : Nat} (h : b.toNat = n) : b = BitVec.ofNat 8 n := by
  rw [← h, BitVec.ofNat_toNat, BitVec.setWidth_eq]

/-! ## The images of the parts -/

/-- 30_encoding.md R64. -/
theorem spliceTimeImage_eq (p : Params) (sp : Bool) (pts : U33) :
    spliceTimeImage p sp pts = if sp then specifiedTime p pts.toNat else [0x00] := by
  rw [spliceTimeImage, boolByte_ovf, low32_toNat]
  rfl

/-- 30_encoding.md R65. -/
theorem breakDurationImage_eq (p : Params) (ar : Bool) (d : U33) : breakDurationImage p ar d =
    [BitVec.ofNat 8 (128 * ar.toNat + overflowBit p d)] ++ beBytes 4 (d.toNat % 2 ^ 32) := by
  rw [breakDurationImage, eq_ofNat_of_toNat (breakByte_toNat p ar d), low32_toNat]
  rfl

/-- 30_encoding.md R66: the body of a splice insert that is not cancelled. -/
theorem spliceInsertImage_of_not_cancelled {c : SpliceInsert} (h : c.spliceEventCancelIndicator = false) (p : Params) :
    spliceInsertImage p c = beBytes 4 c.spliceEventId.toNat ++ ([0x00, insertFlagsByte c] ++
      (if spliceTimePresent c then spliceTimeImage p c.spliceTime.specified c.spliceTime.pts else []) ++
      (if c.durationFlag then breakDurationImage p c.breakDuration.autoReturn c.breakDuration.duration else []) ++
      beBytes 2 c.uniqueProgramId.toNat ++ [c.available, c.expected]) := by
  rw [spliceInsertImage, h, if_neg Bool.false_ne_true]

/-- 10_state.md R15. -/
theorem spliceTimePresent_iff {c : SpliceInsert} :
    spliceTimePresent c = true ↔ c.programSpliceFlag = true ∧ ¬ c.spliceImmediateFlag = true := by
  simp [spliceTimePresent]

/-- Settles O29: the body stands at offset 18, and each of its parts is the layout's. -/
theorem spliceInsertBodyBytes : Obligations.SpliceInsertBodyBytes := by
  intro sec c ds s l hout hcancel
  obtain ⟨d, _, rfl⟩ := Outputs.eq_sectionImage (cmd := .insert c) hout
  calc ((sectionImage s.params sec (.insert c) d).drop 18).take (bodyLengthSI c)
      = spliceInsertImage s.params c := sectionImage_body s.params sec (.insert c) d
    _ = _ := by
      rw [spliceInsertImage_of_not_cancelled hcancel, eq_ofNat_of_toNat (insertFlagsByte_toNat c), spliceTimeImage_eq,
        breakDurationImage_eq]
      simp only [spliceTimePresent_iff, List.append_assoc, List.cons_append, List.nil_append]

/-! ## Reserved bits of the body -/

/-- The byte at an offset, as a one-byte field. -/
theorem fieldAt_of_getElem? {l : List Byte} {a : Nat} {b : Byte} (h : l[a]? = some b) : fieldAt l a 1 = b.toNat :=
  fieldAt_one (by rw [List.take_one, List.head?_drop, h]; rfl)

/-- A byte of the command body, read in the whole section. -/
theorem fieldAt_sectionImage_body {p : Params} {cmd : SpliceCommand} {k : Nat} {b : Byte} (h : (bodyImage p cmd)[k]? = some b)
    (s : SectionFields) (ds : List RawDescriptor) : fieldAt (sectionImage p s cmd ds) (18 + k) 1 = b.toNat := by
  apply fieldAt_of_getElem?
  rw [← List.getElem?_drop, sectionImage_drop_header, List.getElem?_append_left (List.getElem?_eq_some_iff.1 h).1, h]

/-- A flag alone at bit 7. -/
theorem boolByte_shift_seven_mod (b : Bool) : (boolByte b <<< 7).toNat % 128 = 0 := by cases b <;> rfl

/-- A flag alone at bit 0. -/
theorem boolByte_half (b : Bool) : (boolByte b).toNat / 2 = 0 := by cases b <;> rfl

theorem insertFlagsByte_mod (c : SpliceInsert) : (insertFlagsByte c).toNat % 16 = 0 := by
  rw [insertFlagsByte_toNat]; omega

theorem breakByte_half_mod (p : Params) (ar : Bool) (d : U33) : (breakByte p ar d).toNat / 2 % 64 = 0 := by
  have hbit := overflowBit_lt p d
  rw [breakByte_toNat]; omega

section bytes
variable (p : Params)

/-- 30_encoding.md R64: the first byte of a splice time. -/
theorem spliceTimeImage_specifiedByte (sp : Bool) (pts : U33) : (spliceTimeImage p sp pts)[0]? = some (boolByte sp <<< 7) := by
  cases sp <;> rfl

/-- 30_encoding.md R64: the second byte of a specified splice time. -/
theorem spliceTimeImage_overflowByte (pts : U33) : (spliceTimeImage p true pts)[1]? = some (boolByte (ovf p pts)) := rfl

/-- 30_encoding.md R66: the byte after the event id, cancelled or not. -/
theorem spliceInsertImage_cancelByte (c : SpliceInsert) : (spliceInsertImage p c)[4]? = some (cancelByte c) := by
  rw [spliceInsertImage, cancelByte, boolByte_shift_seven, List.getElem?_append_right (by simp), beBytes_length]
  cases c.spliceEventCancelIndicator <;> rfl

variable {p} {c : SpliceInsert} (hcancel : c.spliceEventCancelIndicator = false)
include hcancel

theorem spliceInsertImage_flagsByte : (spliceInsertImage p c)[5]? = some (insertFlagsByte c) := by
  rw [spliceInsertImage_of_not_cancelled hcancel, List.getElem?_append_right (by simp), beBytes_length]
  rfl

/-- 30_encoding.md R66: a splice time that is present stands at offset 6 of the body. -/
theorem spliceInsertImage_spliceTime {k : Nat} {b : Byte} (hprog : c.programSpliceFlag = true)
    (himm : c.spliceImmediateFlag = false) (h : (spliceTimeImage p c.spliceTime.specified c.spliceTime.pts)[k]? = some b) :
    (spliceInsertImage p c)[6 + k]? = some b := by
  have hpresent : spliceTimePresent c = true := by simp [spliceTimePresent, hprog, himm]
  rw [spliceInsertImage_of_not_cancelled hcancel, hpresent, if_pos rfl, List.getElem?_append_right (by simp; omega),
    beBytes_length]
  simp only [List.append_assoc, List.cons_append, List.nil_append]
  rw [show 6 + k - 4 = k + 2 by omega, List.getElem?_cons_succ, List.getElem?_cons_succ,
    List.getElem?_append_left (List.getElem?_eq_some_iff.1 h).1, h]

/-- 30_encoding.md R66: the break duration stands after the splice time, if that is present. -/
theorem spliceInsertImage_breakByte (hdur : c.durationFlag = true) :
    (spliceInsertImage p c)[6 + if spliceTimePresent c then spliceTimeLength c.spliceTime.specified else 0]? =
      some (breakByte p c.breakDuration.autoReturn c.breakDuration.duration) := by
  rw [spliceInsertImage_of_not_cancelled hcancel, hdur, if_pos rfl]
  cases spliceTimePresent c <;> cases c.spliceTime.specified <;> rfl

end bytes

/-- 30_encoding.md R71: the reserved bits of a time signal's body. -/
theorem timeSignal_reservedBits (sec : SectionFields) (c : TimeSignal) (ds : List Descriptor) (s : State) (l : List Byte)
    (h : Outputs (.encTs sec c ds) s l) :
    fieldAt l 18 1 % 128 = 0 ∧ (c.specified = true → fieldAt l 19 1 / 2 = 0) := by
  obtain ⟨d, _, rfl⟩ := Outputs.eq_sectionImage (cmd := .time c) h
  have hbyte {k : Nat} {b : Byte} (hk : (spliceTimeImage s.params c.specified c.pts)[k]? = some b) :=
    fieldAt_sectionImage_body (cmd := .time c) hk sec d
  refine ⟨?_, fun hspec => ?_⟩
  · rw [hbyte (k := 0) (spliceTimeImage_specifiedByte ..), boolByte_shift_seven_mod]
  · rw [hbyte (k := 1) (hspec ▸ spliceTimeImage_overflowByte ..), boolByte_half]

/-- Settles O34: the header's bits hold in every section; each byte of the body is read where its form puts it. -/
theorem reservedBitsAreFixed : Obligations.ReservedBitsAreFixed := by
  refine ⟨fun i s l hout => ?_, fun sec c ds s l hout => ?_, timeSignal_reservedBits⟩
  · obtain ⟨sec, cmd, d, rfl, _⟩ := hout.exists_sectionImage
    exact sectionImage_reservedBitsOk ..
  obtain ⟨d, _, rfl⟩ := Outputs.eq_sectionImage (cmd := .insert c) hout
  have hbyte {k : Nat} {b : Byte} (hk : (spliceInsertImage s.params c)[k]? = some b) :=
    fieldAt_sectionImage_body (cmd := .insert c) hk sec d
  refine ⟨?_, fun hcancel => ⟨?_, fun hprog himm => ⟨?_, fun hspec => ?_⟩, fun hdur => ?_⟩⟩
  · rw [hbyte (k := 4) (spliceInsertImage_cancelByte ..), cancelByte, boolByte_shift_seven_mod]
  · rw [hbyte (k := 5) (spliceInsertImage_flagsByte hcancel), insertFlagsByte_mod]
  · rw [hbyte (k := 6) (spliceInsertImage_spliceTime hcancel hprog himm (spliceTimeImage_specifiedByte ..)),
      boolByte_shift_seven_mod]
  · rw [hbyte (k := 7) (spliceInsertImage_spliceTime hcancel hprog himm (hspec ▸ spliceTimeImage_overflowByte ..)),
      boolByte_half]
  · have hbreak {k : Nat} (hk : (if spliceTimePresent c then spliceTimeLength c.spliceTime.specified else 0) = k) :
        fieldAt (sectionImage s.params sec (.insert c) d) (18 + (6 + k)) 1 / 2 % 64 = 0 := by
      rw [hbyte (hk ▸ spliceInsertImage_breakByte hcancel hdur), breakByte_half_mod]
    refine ⟨fun hprog => hbreak (k := 0) ?_, fun himm => hbreak (k := 0) ?_, fun hprog himm =>
      ⟨fun hspec => hbreak (k := 1) ?_, fun hspec => hbreak (k := 6) ?_⟩⟩
    · simp [spliceTimePresent, hprog]
    · simp [spliceTimePresent, himm]
    · simp [spliceTimePresent, spliceTimeLength, hprog, himm, hspec]
    · simp [spliceTimePresent, spliceTimeLength, hprog, himm, hspec]

end Sys2Proof.Machine
end

section
/-! `LEGACY_OVF` and bit 32 (30_encoding.md R62; 00_scope.md R6). -/

namespace Sys2Proof.Machine

/-- 40_section_encoder.md R95: two records of section fields with the same header bytes give the same operation. -/
theorem encodeOperation_congr_header {sec sec' : SectionFields} {s : State}
    (h : ∀ sl cl dl, headerImage s.params sec sl cl dl = headerImage s.params sec' sl cl dl) (cmd : SpliceCommand)
    (ds : List Descriptor) : encodeOperation sec cmd ds s = encodeOperation sec' cmd ds s := by
  simp only [encodeOperation, encodeSection_eq_ofBytes, sectionImage, coveredImage, h]

theorem low32_withoutBit32 (v : U33) : low32 (withoutBit32 v) = low32 v := by
  rw [← BitVec.toNat_inj, low32_toNat, low32_toNat, withoutBit32, BitVec.toNat_ofNat]
  omega

section legacy
variable {p : Params} (hp : p.legacyOvf = true)
include hp

theorem ovf_of_legacy (v : U33) : ovf p v = false := by rw [ovf, hp, if_pos rfl]

theorem headerImage_withoutBit32 (s : SectionFields) (sl cl dl : Nat) :
    headerImage p { s with ptsAdjustment := withoutBit32 s.ptsAdjustment } sl cl dl = headerImage p s sl cl dl := by
  simp only [headerImage, flagsByte, encryptionByte, tierWord, ovf_of_legacy hp, low32_withoutBit32]

theorem spliceTimeImage_withoutBit32 (sp : Bool) (pts : U33) :
    spliceTimeImage p sp (withoutBit32 pts) = spliceTimeImage p sp pts := by
  simp only [spliceTimeImage, ovf_of_legacy hp, low32_withoutBit32]

theorem breakDurationImage_withoutBit32 (ar : Bool) (d : U33) :
    breakDurationImage p ar (withoutBit32 d) = breakDurationImage p ar d := by
  simp only [breakDurationImage, breakByte, ovf_of_legacy hp, low32_withoutBit32]

theorem bodyImage_insert_withoutBit32 (c : SpliceInsert) :
    bodyImage p (.insert { c with
      spliceTime := ⟨c.spliceTime.specified, withoutBit32 c.spliceTime.pts⟩
      breakDuration := ⟨c.breakDuration.autoReturn, withoutBit32 c.breakDuration.duration⟩ }) = bodyImage p (.insert c) := by
  simp only [bodyImage, spliceInsertImage, spliceTimeImage_withoutBit32 hp, breakDurationImage_withoutBit32 hp]
  rfl

theorem bodyImage_time_withoutBit32 (c : TimeSignal) :
    bodyImage p (.time ⟨c.specified, withoutBit32 c.pts⟩) = bodyImage p (.time c) :=
  spliceTimeImage_withoutBit32 hp c.specified c.pts

end legacy

/-- Settles O35: clearing bit 32 changes neither the header's bytes nor the body's. -/
theorem legacyOverflowHidesBit32 : Obligations.LegacyOverflowHidesBit32 := by
  intro sec c ts ds s hp
  have hheader := encodeOperation_congr_header (headerImage_withoutBit32 hp sec)
  exact ⟨(hheader _ ds).trans (encodeOperation_congr (bodyImage_insert_withoutBit32 hp c) sec ds),
    (hheader _ ds).trans (encodeOperation_congr (bodyImage_time_withoutBit32 hp ts) sec ds)⟩

end Sys2Proof.Machine
end

section
/-! `HexDecode` and the decoding of descriptors (40_section_encoder.md R92, R95). -/

namespace Sys2Proof.Machine

/-! ## Hex digits -/

/-- 40_section_encoder.md R92: the value `hexval` gives is the digit's. -/
theorem hexDigitValue_of_hexval {c : Byte} {x : Nat} (h : hexval c = some x) : HexDigitValue c x := by
  unfold hexval at h
  split at h
  · cases h
    exact .inl (by omega)
  split at h
  · cases h
    exact .inr (by omega)
  split at h
  · cases h
    exact .inr (by omega)
  · cases h

/-- 40_section_encoder.md R92: `hexval` has a value exactly on the hex digits. -/
theorem exists_hexval_iff {c : Byte} : (∃ x, hexval c = some x) ↔ isHexDigit c := by
  unfold hexval isHexDigit
  split
  · simp [*]
  split
  · simp [*]
  split <;> simp [*]

/-! ## `HexDecode` -/

/-- 40_section_encoder.md R92: two digits make one byte, before the rest. -/
theorem hexDecode_cons_cons_eq_some_iff {h l : Byte} {cs out : List Byte} : hexDecode (h :: l :: cs) = some out ↔
    ∃ x y rest, hexval h = some x ∧ hexval l = some y ∧ hexDecode cs = some rest ∧
      out = BitVec.ofNat 8 (16 * x + y) :: rest := by
  rw [hexDecode]
  cases hexval h <;> cases hexval l <;> cases hexDecode cs <;> simp [eq_comm]

/-- 40_section_encoder.md R92: which strings decode. -/
theorem exists_hexDecode_iff (cs : List Byte) :
    (∃ out, hexDecode cs = some out) ↔ cs.length % 2 = 0 ∧ ∀ c ∈ cs, isHexDigit c := by
  induction cs using List.twoStepInduction with
  | nil => simp [hexDecode]
  | singleton c => simp [hexDecode]
  | cons_cons h l t ih _ =>
    have hlen : (h :: l :: t).length % 2 = t.length % 2 := Nat.add_mod_right t.length 2
    simp only [hexDecode_cons_cons_eq_some_iff, hlen, List.forall_mem_cons, ← exists_hexval_iff] at ih ⊢
    constructor
    · rintro ⟨_, x, y, rest, hx, hy, hrest, _⟩
      obtain ⟨heven, hdigits⟩ := ih.1 ⟨rest, hrest⟩
      exact ⟨heven, ⟨x, hx⟩, ⟨y, hy⟩, hdigits⟩
    · rintro ⟨heven, ⟨x, hx⟩, ⟨y, hy⟩, hdigits⟩
      obtain ⟨rest, hrest⟩ := ih.2 ⟨heven, hdigits⟩
      exact ⟨_, x, y, rest, hx, hy, hrest, rfl⟩

/-- 40_section_encoder.md R92: two characters for each byte. -/
theorem length_of_hexDecode {cs out : List Byte} (h : hexDecode cs = some out) : cs.length = 2 * out.length := by
  induction cs using List.twoStepInduction generalizing out with
  | nil => cases h; rfl
  | singleton c => cases h
  | cons_cons a b t ih _ =>
    obtain ⟨x, y, rest, _, _, hrest, rfl⟩ := hexDecode_cons_cons_eq_some_iff.1 h
    simp only [List.length_cons, ih hrest]
    omega

/-- 40_section_encoder.md R92: byte `k` is made of the digits at `2k` and `2k + 1`. -/
theorem getElem?_of_hexDecode {cs out : List Byte} {k : Nat} {h l : Byte} (hdec : hexDecode cs = some out)
    (hh : cs[2 * k]? = some h) (hl : cs[2 * k + 1]? = some l) :
    ∃ x y, HexDigitValue h x ∧ HexDigitValue l y ∧ out[k]? = some (BitVec.ofNat 8 (16 * x + y)) := by
  induction cs using List.twoStepInduction generalizing out k with
  | nil => cases hh
  | singleton c => cases hdec
  | cons_cons a b t ih _ =>
    obtain ⟨x, y, rest, hx, hy, hrest, rfl⟩ := hexDecode_cons_cons_eq_some_iff.1 hdec
    cases k with
    | zero =>
      cases hh
      cases hl
      exact ⟨x, y, hexDigitValue_of_hexval hx, hexDigitValue_of_hexval hy, rfl⟩
    | succ k => exact ih (out := rest) (k := k) hrest hh hl

/-- Settles O38: by induction two characters at a time. -/
theorem hexDecodeIsExact : Obligations.HexDecodeIsExact :=
  ⟨fun cs => Option.isSome_iff_exists.trans (exists_hexDecode_iff cs),
    fun _ _ hdec => ⟨length_of_hexDecode hdec, fun _ _ _ hh hl => getElem?_of_hexDecode hdec hh hl⟩, rfl, rfl, rfl, rfl⟩

/-! ## Descriptors -/

/-- 40_section_encoder.md R95: a descriptor keeps its tag; `BYTES` data stand as they are, `HEX` data by `HexDecode`. -/
theorem decodeDescriptor_eq_some_iff {x : Descriptor} {y : RawDescriptor} : decodeDescriptor x = some y ↔
    y.tag = x.tag ∧ (x.form = .bytes → y.data = x.data) ∧ (x.form = .hex → hexDecode x.data = some y.data) := by
  obtain ⟨tag, form, data⟩ := x
  obtain ⟨tag', data'⟩ := y
  cases form with
  | bytes => simp [eq_comm]
  | hex => simp [eq_comm, and_comm]

/-- 40_section_encoder.md R95: every descriptor decoded, in the order given. -/
theorem decodeDescriptors_eq_some_iff {ds : List Descriptor} {d : List RawDescriptor} :
    decodeDescriptors ds = some d ↔ List.Forall₂ (fun x y => decodeDescriptor x = some y) ds d := by
  induction ds generalizing d with
  | nil => simp [decodeDescriptors, eq_comm]
  | cons x t ih =>
    rw [decodeDescriptors, List.forall₂_cons_left_iff]
    cases hx : decodeDescriptor x with
    | none => simp
    | some r => simp [ih, eq_comm (b := d)]

end Sys2Proof.Machine
end

section
/-! The two ENC operations (40_section_encoder.md R95, R97, R100, R101; 20_memory.md R41; 60_exceptions.md R151, R152). -/

namespace Sys2Proof.Machine

/-! ## The two passes and the layout -/

/-- Settles O23: the buffer the two passes leave holds the layout's bytes from offset 0, and nothing else. -/
theorem twoPassAlgorithmProducesTheLayout : Obligations.TwoPassAlgorithmProducesTheLayout := by
  intro p sec cmd ds b
  have hbuf := encodeSection_eq_ofBytes p sec cmd ds b
  refine ⟨?_, ?_, ?_, fun a => ?_⟩ <;> rw [hbuf]
  · exact Buffer.ofBytes_contents _
  · exact sectionImage_length p sec cmd ds
  · exact Buffer.ofBytes_wf _
  · exact Buffer.ofBytes_read _ a

/-! ## The three outcomes -/

section outcomes
variable {sec : SectionFields} {cmd : SpliceCommand} {ds : List Descriptor} {s : State}

/-- 60_exceptions.md R151, R154: a malformed descriptor. -/
theorem exec_encInstr_of_malformed (h : decodeDescriptors ds = none) :
    exec (encInstr sec cmd ds) s = .next { s with rsp := ⟨2, 0, none, none, none, none⟩, buf := ⟨[], 0⟩ } := by
  rw [exec_encInstr, encodeOperation, h]
  rfl

variable {d : List RawDescriptor}

/-- 20_memory.md R41: a section longer than `OBUF_SIZE`. -/
theorem exec_encInstr_of_exceeds (h : decodeDescriptors ds = some d)
    (hlen : 22 + bodyLength cmd + descLength d > s.params.obufSize) :
    exec (encInstr sec cmd ds) s = .refused .sectionExceedsBuffer := by
  simp only [exec_encInstr, encodeOperation, h, if_pos hlen]

/-- 40_section_encoder.md R95, R97: a section that fits. -/
theorem exec_encInstr_of_fits (h : decodeDescriptors ds = some d)
    (hlen : 22 + bodyLength cmd + descLength d ≤ s.params.obufSize) :
    exec (encInstr sec cmd ds) s = .next { s with
      rsp := ⟨0, 22 + bodyLength cmd + descLength d, some (sectionImage s.params sec cmd d), none, none, none⟩
      buf := ⟨[], 0⟩ } := by
  simp only [exec_encInstr, encodeOperation, h, if_neg (Nat.not_lt.2 hlen), encodeSection_eq_ofBytes, Buffer.ofBytes_wp,
    Buffer.ofBytes_contents, sectionImage_length]
  rfl

end outcomes

/-- Settles O21: the opcode selects ENC.SI, each descriptor is decoded by its form, and the three outcomes are ENC's. -/
theorem encSiOperation : Obligations.EncSiOperation := by
  refine ⟨fun o => decode_of_present (i := .encSi ..) ⟨rfl, rfl, rfl⟩, fun ds d => ?_, fun sec c ds s =>
    ⟨exec_encInstr_of_malformed (cmd := .insert c), fun d hd =>
      ⟨exec_encInstr_of_exceeds (cmd := .insert c) hd, exec_encInstr_of_fits (cmd := .insert c) hd⟩⟩⟩
  simp only [decodeDescriptors_eq_some_iff, decodeDescriptor_eq_some_iff]

/-- Settles O22: the opcode selects ENC.TS, and the three outcomes are ENC's with the byte count of R98. -/
theorem encTsOperation : Obligations.EncTsOperation :=
  ⟨fun _ => decode_of_present (i := .encTs ..) ⟨rfl, rfl, rfl⟩, fun _ c _ _ =>
    ⟨exec_encInstr_of_malformed (cmd := .time c), fun _ hd =>
      ⟨exec_encInstr_of_exceeds (cmd := .time c) hd, exec_encInstr_of_fits (cmd := .time c) hd⟩⟩⟩

/-! ## The body of a cancelled splice insert and of a time signal -/

/-- 30_encoding.md R66: the body of a cancelled splice insert. -/
theorem spliceInsertImage_of_cancelled {c : SpliceInsert} (h : c.spliceEventCancelIndicator = true) (p : Params) :
    spliceInsertImage p c = beBytes 4 c.spliceEventId.toNat ++ [0x80] := by
  rw [spliceInsertImage, h, if_pos rfl]

/-- 40_section_encoder.md R100: its byte count. -/
theorem bodyLength_of_cancelled {c : SpliceInsert} (h : c.spliceEventCancelIndicator = true) : bodyLength (.insert c) = 5 := by
  rw [bodyLength, bodyLengthSI, h, if_pos rfl]

/-- Settles O30: the body's bytes decide the operation, and those of a cancelled record are its id and 0x80. -/
theorem cancelShortCircuit : Obligations.CancelShortCircuit := by
  intro sec c c' ds s l hc hc' hid
  refine ⟨encodeOperation_congr (cmd := .insert c') (cmd' := .insert c) ?_ sec ds, fun hout => ?_⟩
  · rw [bodyImage, bodyImage, spliceInsertImage_of_cancelled hc, spliceInsertImage_of_cancelled hc', hid]
  obtain ⟨d, _, rfl⟩ := Outputs.eq_sectionImage (cmd := .insert c) hout
  have hlen := bodyLength_of_cancelled hc
  constructor
  · rw [fieldAt_sectionImage _ _ _ _ (by decide), headerImage_commandLength, bodyLength_mod, hlen]
  · rw [← hlen, sectionImage_body, bodyImage, spliceInsertImage_of_cancelled hc]

/-- Settles O32: between the header and the loop stands the splice time alone. -/
theorem timeSignalBodyBytes : Obligations.TimeSignalBodyBytes := by
  intro sec c ds d s l hout hd
  obtain rfl := Outputs.eq_sectionImage_of_decode (cmd := .time c) hout hd
  have hcount : (sectionImage s.params sec (.time c) d).length - 22 - descLength d = bodyLength (.time c) := by simp; omega
  intro body
  have hbody : body = if c.specified then specifiedTime s.params c.pts.toNat else [0x00] :=
    calc body
        = ((sectionImage s.params sec (.time c) d).drop 18).take (bodyLength (.time c)) := by rw [← hcount]
      _ = spliceTimeImage s.params c.specified c.pts := sectionImage_body s.params sec (.time c) d
      _ = _ := spliceTimeImage_eq ..
  refine ⟨fun hspec => ?_, fun hspec => ?_⟩ <;> rw [hspec] at hbody
  · exact hbody
  · exact ⟨by rw [hbody]; rfl, hbody⟩

/-! ## What an ENC operation reads and writes -/

/-- 40_section_encoder.md R95, R97, 60_exceptions.md R151: the response of an ENC operation that answers a next state. -/
def encResponse (p : Params) (sec : SectionFields) (cmd : SpliceCommand) (ds : List Descriptor) : Response :=
  match decodeDescriptors ds with
  | none   => ⟨2, 0, none, none, none, none⟩
  | some d => ⟨0, 22 + bodyLength cmd + descLength d, some (sectionImage p sec cmd d), none, none, none⟩

/-- 40_section_encoder.md R101: an ENC operation writes its response, drops the working buffer, and nothing else. -/
theorem eq_of_exec_encInstr {sec : SectionFields} {cmd : SpliceCommand} {ds : List Descriptor} {s t : State}
    (h : exec (encInstr sec cmd ds) s = .next t) : t = { s with rsp := encResponse s.params sec cmd ds, buf := ⟨[], 0⟩ } := by
  unfold encResponse
  cases hd : decodeDescriptors ds with
  | none =>
    rw [exec_encInstr_of_malformed hd] at h
    cases h
    rfl
  | some d =>
    by_cases hlen : 22 + bodyLength cmd + descLength d > s.params.obufSize
    · rw [exec_encInstr_of_exceeds hd hlen] at h
      cases h
    · rw [exec_encInstr_of_fits hd (Nat.le_of_not_lt hlen)] at h
      cases h
      rfl

section legacyOvf
variable {p p' : Params} (hp : p'.legacyOvf = p.legacyOvf)
include hp

/-- 30_encoding.md R62: the overflow bit sees the straps through `LEGACY_OVF` alone. -/
theorem ovf_congr_legacyOvf (v : U33) : ovf p' v = ovf p v := by rw [ovf, ovf, hp]

/-- 30_encoding.md R64 to R67: of the straps the command body sees the overflow bits alone. -/
theorem bodyImage_congr_legacyOvf (cmd : SpliceCommand) : bodyImage p' cmd = bodyImage p cmd := by
  cases cmd <;>
    simp only [bodyImage, spliceInsertImage, spliceTimeImage, breakDurationImage, breakByte, ovf_congr_legacyOvf hp]

/-- 30_encoding.md R58, R70: so does the section. -/
theorem sectionImage_congr_legacyOvf (sec : SectionFields) (cmd : SpliceCommand) (ds : List RawDescriptor) :
    sectionImage p' sec cmd ds = sectionImage p sec cmd ds := by
  simp only [sectionImage, coveredImage, headerImage, encryptionByte, bodyImage_congr_legacyOvf hp, ovf_congr_legacyOvf hp]

/-- 40_section_encoder.md R101. -/
theorem encResponse_congr_legacyOvf (sec : SectionFields) (cmd : SpliceCommand) (ds : List Descriptor) :
    encResponse p' sec cmd ds = encResponse p sec cmd ds := by
  simp only [encResponse, sectionImage_congr_legacyOvf hp]

end legacyOvf

/-- Settles O36: the response written is `encResponse`, which sees the straps through `LEGACY_OVF` alone. -/
theorem encodingIsPure : Obligations.EncodingIsPure := by
  intro sec cmd ds s t h
  obtain rfl := eq_of_exec_encInstr h
  refine ⟨rfl, fun s' t' hovf h' => ?_⟩
  obtain rfl := eq_of_exec_encInstr h'
  exact encResponse_congr_legacyOvf hovf sec cmd ds

/-- 10_state.md R22: an ENC operation defines no event id, stamp or echo. -/
theorem encResponse_cueFields (p : Params) (sec : SectionFields) (cmd : SpliceCommand) (ds : List Descriptor) :
    (encResponse p sec cmd ds).evid = none ∧ (encResponse p sec cmd ds).tstamp = none ∧
      (encResponse p sec cmd ds).echo = none := by
  unfold encResponse
  split <;> exact ⟨rfl, rfl, rfl⟩

/-- Settles O50: everything but the response and the working buffer is as it was, and the buffer is empty. -/
theorem encoderOperationsFrame : Obligations.EncoderOperationsFrame := by
  intro sec cmd ds s t h
  obtain rfl := eq_of_exec_encInstr h
  exact ⟨rfl, rfl, rfl, rfl, fun _ => rfl, rfl, encResponse_cueFields ..⟩

end Sys2Proof.Machine
end

section
/-! The CRC's worked values and the two text views (41_crc_and_views.md R111, R113 to R116). -/

namespace Sys2Proof.Machine

/-! ## The CRC -/

/-- Settles O41: the algorithm run on each of the five strings. -/
theorem crcWorkedExamples : Obligations.CrcWorkedExamples := by
  refine ⟨?_, ?_, ?_, ?_, ?_⟩ <;> decide +kernel

/-! ## The hex view -/

/-- A byte by its value. -/
theorem ofNat_eq_byte {n : Nat} {a : Byte} (h : n = a.toNat) : BitVec.ofNat 8 n = a := by
  rw [h, BitVec.ofNat_toNat, BitVec.setWidth_eq]

/-- 41_crc_and_views.md R113: two characters for each byte. -/
@[simp] theorem hexView_length (b : List Byte) : (hexView b).length = 2 * b.length := by
  induction b with
  | nil => rfl
  | cons a t ih => exact congrArg (· + 2) ih

/-- 41_crc_and_views.md R113: characters `2i` and `2i + 1` are the digits of byte `i`. -/
theorem getElem?_hexView {b : List Byte} {i : Nat} {x : Byte} (h : b[i]? = some x) :
    (hexView b)[2 * i]? = some (hexDigit (x.toNat / 16)) ∧ (hexView b)[2 * i + 1]? = some (hexDigit (x.toNat % 16)) := by
  induction b generalizing i with
  | nil => cases h
  | cons a t ih =>
    cases i with
    | zero =>
      cases h
      exact ⟨rfl, rfl⟩
    | succ i => exact ih (i := i) h

/-- 41_crc_and_views.md R113: the digits by their character codes. -/
theorem hexDigit_eq (n : Nat) :
    hexDigit n = if n ≤ 9 then BitVec.ofNat 8 (48 + n) else BitVec.ofNat 8 (65 + (n - 10)) := by
  simp only [hexDigit, ← Nat.lt_succ_iff]

/-- Settles O42: by induction on the bytes, two characters at a time. -/
theorem hexViewDigits : Obligations.HexViewDigits := by
  refine ⟨hexView_length, fun b i x h => ?_, rfl, rfl⟩
  simp only [← hexDigit_eq]
  exact getElem?_hexView h

/-- 41_crc_and_views.md R115: a digit reads back. -/
theorem hexval_hexDigit : ∀ n < 16, hexval (hexDigit n) = some n := by decide

/-- 41_crc_and_views.md R115: the hex view decodes to the bytes it shows. -/
theorem hexDecode_hexView (b : List Byte) : hexDecode (hexView b) = some b := by
  induction b with
  | nil => rfl
  | cons a t ih =>
    have hhigh := hexval_hexDigit (a.toNat / 16) (Nat.div_lt_of_lt_mul a.isLt)
    have hlow := hexval_hexDigit (a.toNat % 16) (Nat.mod_lt _ (by decide))
    have hbyte := ofNat_eq_byte (a := a) (Nat.div_add_mod a.toNat 16)
    exact hexDecode_cons_cons_eq_some_iff.2 ⟨_, _, t, hhigh, hlow, ih, congrArg (· :: t) hbyte.symm⟩

/-! ## Groups of the Base64 view -/

/-- 41_crc_and_views.md R114: the four characters of three bytes. -/
def base64Quad (a b c : Byte) : List Byte :=
  [base64Char (a.toNat / 4), base64Char (a.toNat % 4 * 16 + b.toNat / 16),
    base64Char (b.toNat % 16 * 4 + c.toNat / 64), base64Char (c.toNat % 64)]

/-- 41_crc_and_views.md R114: a full group stands before the view of the rest. -/
theorem base64View_cons_cons_cons (a b c : Byte) (t : List Byte) :
    base64View (a :: b :: c :: t) = base64Quad a b c ++ base64View t := rfl

/-- 41_crc_and_views.md R114: a final group of one byte, the missing bits zero. -/
theorem base64View_singleton (a : Byte) : base64View [a] = (base64Quad a 0 0).take 2 ++ [base64Pad, base64Pad] := rfl

/-- 41_crc_and_views.md R114: a final group of two bytes, the missing bits zero. -/
theorem base64View_pair (a b : Byte) : base64View [a, b] = (base64Quad a b 0).take 3 ++ [base64Pad] := rfl

/-- 41_crc_and_views.md R114: four characters for each three bytes begun. -/
theorem base64View_length (b : List Byte) : (base64View b).length = 4 * ((b.length + 2) / 3) := by
  induction b using base64View.induct with
  | case1 => rfl
  | case2 a => exact (show 4 = 4 * (3 / 3) from rfl)
  | case3 a b => exact (show 4 = 4 * (4 / 3) from rfl)
  | case4 a b c t ih =>
    calc (base64View (a :: b :: c :: t)).length
        = 4 * ((t.length + 2) / 3) + 4 := congrArg (· + 4) ih
      _ = 4 * ((t.length + 2 + 3) / 3) := by rw [Nat.add_div_right _ (by decide), Nat.mul_succ]

/-- 41_crc_and_views.md R114: past `i` groups of characters stands the view of the bytes past `i` groups of three. -/
theorem drop_base64View (b : List Byte) (i : Nat) : (base64View b).drop (4 * i) = base64View (b.drop (3 * i)) := by
  induction i generalizing b with
  | zero => rfl
  | succ i ih =>
    match b with
    | [] => exact List.drop_nil
    | [a] => exact List.drop_nil
    | [a, b] => exact List.drop_nil
    | a :: b :: c :: t => exact ih t

/-- 41_crc_and_views.md R114: a character of group `i`, in the view of the bytes from that group on. -/
theorem getElem?_base64View (b : List Byte) (i j : Nat) :
    (base64View b)[4 * i + j]? = (base64View (b.drop (3 * i)))[j]? := by
  rw [← List.getElem?_drop, drop_base64View]

/-- The list from a given element on. -/
theorem drop_eq_cons_of_getElem? {l : List Byte} {n : Nat} {x : Byte} (h : l[n]? = some x) :
    l.drop n = x :: l.drop (n + 1) := by
  obtain ⟨hn, rfl⟩ := List.getElem?_eq_some_iff.1 h
  exact List.drop_eq_getElem_cons hn

/-! ## The bits of a group, as numbers -/

/-- A value packed above a value below `k`, read back. -/
theorem packed_div {k x y : Nat} (hy : y < k) : (x * k + y) / k = x := by
  rw [Nat.add_comm, Nat.add_mul_div_right _ _ (Nat.zero_lt_of_lt hy), Nat.div_eq_of_lt hy, Nat.zero_add]

theorem packed_lt {k m x y : Nat} (hx : x < m) (hy : y < k) : x * k + y < m * k :=
  calc x * k + y
      < x * k + k := Nat.add_lt_add_left hy _
    _ = (x + 1) * k := (Nat.succ_mul x k).symm
    _ ≤ m * k := Nat.mul_le_mul_right k hx

/-- Four digits in base `k`, packed and read back. -/
theorem digits_of_packed {k p q r s n : Nat} (hp : p < k) (hq : q < k) (hr : r < k) (hs : s < k)
    (hn : n = ((p * k + q) * k + r) * k + s) :
    n / (k * k * k) % k = p ∧ n / (k * k) % k = q ∧ n / k % k = r ∧ n / 1 % k = s := by
  have hthree : n / k = (p * k + q) * k + r := by rw [hn, packed_div hs]
  have htwo : n / (k * k) = p * k + q := by rw [← Nat.div_div_eq_div_mul, hthree, packed_div hr]
  have hone : n / (k * k * k) = p := by rw [← Nat.div_div_eq_div_mul, htwo, packed_div hq]
  rw [hone, htwo, hthree, Nat.div_one, hn]
  exact ⟨Nat.mod_eq_of_lt hp, Nat.mul_add_mod_of_lt hq, Nat.mul_add_mod_of_lt hr, Nat.mul_add_mod_of_lt hs⟩

section bits
variable {a b c : Nat} (ha : a < 2 ^ 8) (hb : b < 2 ^ 8) (hc : c < 2 ^ 8)

/-- 41_crc_and_views.md R114: the 24 bits of three bytes are those of the group's four values. -/
theorem packed_sextets (a b c : Nat) : a * 2 ^ 16 + b * 2 ^ 8 + c =
    ((a / 4 * 64 + (a % 4 * 16 + b / 16)) * 64 + (b % 16 * 4 + c / 64)) * 64 + c % 64 := by
  have ha := Nat.div_add_mod' a 4
  have hb := Nat.div_add_mod' b 16
  have hc := Nat.div_add_mod' c 64
  generalize a / 4 = p, a % 4 = a₀, b / 16 = b₁, b % 16 = b₀, c / 64 = c₁, c % 64 = c₀ at *
  subst ha hb hc
  ring

include ha hb hc

/-- 41_crc_and_views.md R114: each of the four values has 6 bits. -/
theorem sextets_lt : a / 4 < 64 ∧ a % 4 * 16 + b / 16 < 64 ∧ b % 16 * 4 + c / 64 < 64 ∧ c % 64 < 64 :=
  ⟨Nat.div_lt_of_lt_mul ha, packed_lt (Nat.mod_lt a (by decide)) (Nat.div_lt_of_lt_mul hb),
    packed_lt (Nat.mod_lt b (by decide)) (Nat.div_lt_of_lt_mul hc), Nat.mod_lt c (by decide)⟩

omit ha

/-- 41_crc_and_views.md R115: the four values give the three bytes back. -/
theorem bytes_of_sextets :
    a / 4 * 4 + (a % 4 * 16 + b / 16) / 16 = a ∧
    (a % 4 * 16 + b / 16) % 16 * 16 + (b % 16 * 4 + c / 64) / 4 = b ∧
    (b % 16 * 4 + c / 64) % 4 * 64 + c % 64 = c := by
  have hb' : b / 16 < 16 := Nat.div_lt_of_lt_mul hb
  have hc' : c / 64 < 4 := Nat.div_lt_of_lt_mul hc
  rw [packed_div hb', packed_div hc', Nat.mul_add_mod_of_lt hb', Nat.mul_add_mod_of_lt hc']
  exact ⟨Nat.div_add_mod' a 4, Nat.div_add_mod' b 16, Nat.div_add_mod' c 64⟩

end bits

/-! ## The characters of the Base64 view -/

/-- 41_crc_and_views.md R114: the standard alphabet (PRESUMED, log 14). -/
def base64Alphabet : List Char := "ABCDEFGHIJKLMNOPQRSTUVWXYZabcdefghijklmnopqrstuvwxyz0123456789+/".toList

/-- 41_crc_and_views.md R114: the alphabet's character of a value. -/
def base64AlphabetChar (v : Nat) : Option Byte := base64Alphabet[v]?.map fun c => BitVec.ofNat 8 c.toNat

/-- 41_crc_and_views.md R114: the alphabet is the characters of the values below 64 in order. -/
theorem base64Alphabet_eq : base64Alphabet = (List.range 64).map fun v => Char.ofNat (base64Char v).toNat :=
  String.toList_ofList

/-- A byte, as a character and back. -/
theorem toNat_charOfNat_byte (b : Byte) : (Char.ofNat b.toNat).toNat = b.toNat := by
  rw [Char.toNat_ofNat, if_pos (.inl (b.isLt.trans (by decide)))]

/-- 41_crc_and_views.md R114: the model's characters are the alphabet's. -/
theorem base64AlphabetChar_eq {v : Nat} (hv : v < 64) : base64AlphabetChar v = some (base64Char v) := by
  simp only [base64AlphabetChar, base64Alphabet_eq, List.getElem?_map, List.getElem?_range hv, Option.map_some,
    ofNat_eq_byte (toNat_charOfNat_byte _)]

section quad
variable {a b c : Byte} {n : Nat} (hn : n = a.toNat * 2 ^ 16 + b.toNat * 2 ^ 8 + c.toNat)
include hn

/-- 41_crc_and_views.md R114: the characters of a group are those of the 6-bit pieces of its 24 bits `n`, most significant first. -/
theorem base64Quad_eq : base64Quad a b c = (List.range 4).map fun j => base64Char (n / 2 ^ (6 * (3 - j)) % 2 ^ 6) := by
  obtain ⟨hp, hq, hr, hs⟩ := sextets_lt a.isLt b.isLt c.isLt
  obtain ⟨h₀, h₁, h₂, h₃⟩ := digits_of_packed hp hq hr hs (hn.trans (packed_sextets ..))
  rw [base64Quad, ← h₀, ← h₁, ← h₂, ← h₃]
  rfl

/-- 41_crc_and_views.md R114: so each is the alphabet's. -/
theorem getElem?_base64Quad {j : Nat} (hj : j < 4) :
    (base64Quad a b c)[j]? = base64AlphabetChar (n / 2 ^ (6 * (3 - j)) % 2 ^ 6) := by
  rw [base64Quad_eq hn, List.getElem?_map, List.getElem?_range hj, Option.map_some,
    base64AlphabetChar_eq (by exact Nat.mod_lt _ (by decide))]

end quad

/-- Settles O43: every clause is about one group, and the characters of a group are those of `base64Quad`. -/
theorem base64ViewCharacters : Obligations.Base64ViewCharacters := by
  refine ⟨base64View_length, fun b i x y z hx hy hz j hj => ?_, fun b i x y hlen hx hy => ?_, fun b i x hlen hx => ?_,
    rfl, rfl, rfl, rfl⟩
  · have hgroup : b.drop (3 * i) = x :: y :: z :: b.drop (3 * i + 3) := by
      rw [drop_eq_cons_of_getElem? hx, drop_eq_cons_of_getElem? hy, drop_eq_cons_of_getElem? hz]
    rw [getElem?_base64View, hgroup, base64View_cons_cons_cons, List.getElem?_append_left hj]
    exact getElem?_base64Quad rfl hj
  · have hgroup : b.drop (3 * i) = [x, y] := by
      rw [drop_eq_cons_of_getElem? hx, drop_eq_cons_of_getElem? hy, List.drop_eq_nil_of_le hlen.le]
    simp only [getElem?_base64View, hgroup, base64View_pair]
    refine ⟨fun j hj => ?_, rfl⟩
    rw [List.getElem?_append_left hj, List.getElem?_take_of_lt hj]
    exact getElem?_base64Quad (by simp) (hj.trans (by decide))
  · have hgroup : b.drop (3 * i) = [x] := by
      rw [drop_eq_cons_of_getElem? hx, List.drop_eq_nil_of_le hlen.le]
    simp only [getElem?_base64View, hgroup, base64View_singleton]
    refine ⟨fun j hj => ?_, rfl, rfl⟩
    rw [List.getElem?_append_left hj, List.getElem?_take_of_lt hj]
    exact getElem?_base64Quad (by simp) (hj.trans (by decide))

/-! ## Decoding the Base64 view -/

/-- 41_crc_and_views.md R115: a character of the alphabet reads back. -/
theorem base64Value_base64Char : ∀ v < 64, base64Value (base64Char v) = some v := by decide

/-- 41_crc_and_views.md R114: the padding is not in the alphabet. -/
theorem base64Char_ne_pad {v : Nat} (hv : v < 64) : base64Char v ≠ base64Pad := by
  intro h
  have hval := base64Value_base64Char v hv
  rw [h] at hval
  cases hval

/-- 41_crc_and_views.md R115: a group of four characters, then the rest. -/
theorem base64Decode_group {w x y z : Byte} {t g out : List Byte} (hgroup : base64Group t.isEmpty w x y z = some g)
    (hrest : base64Decode t = some out) : base64Decode (w :: x :: y :: z :: t) = some (g ++ out) := by
  change (match base64Group t.isEmpty w x y z, base64Decode t with
    | some g, some out => some (g ++ out)
    | _, _ => none) = _
  rw [hgroup, hrest]

section group
variable {p q r s : Nat} (hp : p < 64) (hq : q < 64)
include hp hq

/-- 41_crc_and_views.md R115: a final group with two padding characters. -/
theorem base64Group_two_pads : base64Group true (base64Char p) (base64Char q) base64Pad base64Pad =
    some [BitVec.ofNat 8 (p * 4 + q / 16)] := by
  rw [base64Group, base64Value_base64Char p hp, base64Value_base64Char q hq]
  exact if_pos ⟨rfl, rfl, rfl⟩

variable (hr : r < 64)
include hr

/-- 41_crc_and_views.md R115: a final group with one padding character. -/
theorem base64Group_one_pad : base64Group true (base64Char p) (base64Char q) (base64Char r) base64Pad =
    some [BitVec.ofNat 8 (p * 4 + q / 16), BitVec.ofNat 8 (q % 16 * 16 + r / 4)] := by
  rw [base64Group, base64Value_base64Char p hp, base64Value_base64Char q hq, base64Value_base64Char r hr]
  exact (if_neg fun h => base64Char_ne_pad hr h.2.1).trans (if_pos ⟨rfl, rfl⟩)

/-- 41_crc_and_views.md R115: a group without padding, final or not. -/
theorem base64Group_no_pad (hs : s < 64) (last : Bool) :
    base64Group last (base64Char p) (base64Char q) (base64Char r) (base64Char s) =
      some [BitVec.ofNat 8 (p * 4 + q / 16), BitVec.ofNat 8 (q % 16 * 16 + r / 4), BitVec.ofNat 8 (r % 4 * 64 + s)] := by
  rw [base64Group, base64Value_base64Char p hp, base64Value_base64Char q hq, base64Value_base64Char r hr,
    base64Value_base64Char s hs]
  exact (if_neg fun h => base64Char_ne_pad hr h.2.1).trans (if_neg fun h => base64Char_ne_pad hs h.2)

end group

/-- 41_crc_and_views.md R115: the Base64 view decodes to the bytes it shows. -/
theorem base64Decode_base64View (b : List Byte) : base64Decode (base64View b) = some b := by
  induction b using base64View.induct with
  | case1 => rfl
  | case2 a =>
    obtain ⟨hp, hq, _⟩ := sextets_lt a.isLt (b := 0) (by decide) (c := 0) (by decide)
    obtain ⟨ha, _⟩ := bytes_of_sextets (a := a.toNat) (b := 0) (by decide) (c := 0) (by decide)
    have hgroup := base64Group_two_pads hp hq
    rw [ofNat_eq_byte ha] at hgroup
    exact base64Decode_group (t := []) hgroup rfl
  | case3 a b =>
    obtain ⟨hp, hq, hr, _⟩ := sextets_lt a.isLt b.isLt (c := 0) (by decide)
    obtain ⟨ha, hb, _⟩ := bytes_of_sextets (a := a.toNat) b.isLt (c := 0) (by decide)
    have hgroup := base64Group_one_pad hp hq hr
    rw [ofNat_eq_byte ha, ofNat_eq_byte hb] at hgroup
    exact base64Decode_group (t := []) hgroup rfl
  | case4 a b c t ih =>
    obtain ⟨hp, hq, hr, hs⟩ := sextets_lt a.isLt b.isLt c.isLt
    obtain ⟨ha, hb, hc⟩ := bytes_of_sextets (a := a.toNat) b.isLt c.isLt
    have hgroup := base64Group_no_pad hp hq hr hs (base64View t).isEmpty
    rw [ofNat_eq_byte ha, ofNat_eq_byte hb, ofNat_eq_byte hc] at hgroup
    exact base64Decode_group hgroup ih

/-- Settles O44: each view by its own decoder. -/
theorem viewsRoundTrip : Obligations.ViewsRoundTrip := fun b => ⟨hexDecode_hexView b, base64Decode_base64View b⟩

end Sys2Proof.Machine
end

section
/-! What stops an operation or a step, and what an error answers (60_exceptions.md R151, R154, R157, R168; 20_memory.md R41). -/

namespace Sys2Proof.Machine

/-! ## Malformed descriptors -/

/-- 40_section_encoder.md R92: which strings do not decode. -/
theorem hexDecode_eq_none_iff {cs : List Byte} : hexDecode cs = none ↔ cs.length % 2 = 1 ∨ ∃ c ∈ cs, ¬ isHexDigit c := by
  rw [← Option.not_isSome_iff_eq_none, Option.isSome_iff_exists, exists_hexDecode_iff]
  simp only [not_and_or, not_forall, exists_prop, Nat.mod_two_not_eq_zero]

/-- 60_exceptions.md R154: a descriptor fails to decode exactly when it is malformed. -/
theorem decodeDescriptor_eq_none_iff {d : Descriptor} : decodeDescriptor d = none ↔ malformedDescriptor d := by
  obtain ⟨tag, form, data⟩ := d
  cases form with
  | bytes => simp [malformedDescriptor]
  | hex => simp [malformedDescriptor, hexDecode_eq_none_iff]

/-- 60_exceptions.md R154, R157: one malformed descriptor, wherever it stands, is enough. -/
theorem decodeDescriptors_eq_none_iff {ds : List Descriptor} :
    decodeDescriptors ds = none ↔ ∃ d ∈ ds, malformedDescriptor d := by
  induction ds with
  | nil => simp [decodeDescriptors]
  | cons d t ih =>
    rw [List.exists_mem_cons_iff, ← ih, ← decodeDescriptor_eq_none_iff, decodeDescriptors]
    cases decodeDescriptor d <;> simp

/-- 60_exceptions.md R154: the other operations raise no error. -/
theorem Completion.err_eq_zero_of_ne_encInstr {i : Instr} {s t : State} (h : Completion s i t)
    (hi : ∀ sec cmd ds, i ≠ encInstr sec cmd ds) : t.rsp.err = 0 := by
  cases h with
  | malformed sec cmd ds => exact absurd rfl (hi sec cmd ds)
  | encoded sec cmd ds => exact absurd rfl (hi sec cmd ds)
  | generated => exact respondCue_err ..
  | drawn | reseeded => rfl

/-- Settles O37: the descriptors decode exactly when none is malformed, and only ENC's response depends on them. -/
theorem malformedDescriptorData : Obligations.MalformedDescriptorData := by
  refine ⟨fun sec cmd ds s => ⟨fun hmal => ?_, fun hwell t h => ?_⟩, fun i s t hi h => ?_⟩
  · exact exec_encInstr_of_malformed (decodeDescriptors_eq_none_iff.2 hmal)
  · obtain ⟨d, hd⟩ : ∃ d, decodeDescriptors ds = some d := by
      rw [← Option.ne_none_iff_exists', Ne, decodeDescriptors_eq_none_iff]
      exact fun ⟨d, hmem, hmal⟩ => hwell d hmem hmal
    rw [eq_of_exec_encInstr h, encResponse, hd]
  · rw [(completion_of_exec h).err_eq_zero_of_ne_encInstr hi]
    decide

/-! ## The capacity -/

/-- 20_memory.md R41: the operation `i` is an ENC operation whose descriptors decode and whose section exceeds `OBUF_SIZE`. -/
def ExceedsCapacity (p : Params) (i : Instr) : Prop :=
  ∃ sec cmd ds d, i = encInstr sec cmd ds ∧ decodeDescriptors ds = some d ∧ p.obufSize < 22 + bodyLength cmd + descLength d

theorem exec_encInstr_completes_or_refuses (sec : SectionFields) (cmd : SpliceCommand) (ds : List Descriptor) (s : State) :
    (∃ t, exec (encInstr sec cmd ds) s = .next t) ∨
      (exec (encInstr sec cmd ds) s = .refused .sectionExceedsBuffer ∧ ExceedsCapacity s.params (encInstr sec cmd ds)) := by
  rw [exec_encInstr]
  rcases encodeOperation_cases sec cmd ds s with ⟨_, he⟩ | ⟨d, hd, hlen, he⟩ | ⟨_, _, _, _, _, he⟩
  · exact .inl ⟨_, he⟩
  · exact .inr ⟨he, sec, cmd, ds, d, rfl, hd, hlen⟩
  · exact .inl ⟨_, he⟩

/-- 60_exceptions.md R151, R168: every operation answers a next state, or is refused for capacity. -/
theorem exec_completes_or_refuses (i : Instr) (s : State) :
    (∃ t, exec i s = .next t) ∨ (exec i s = .refused .sectionExceedsBuffer ∧ ExceedsCapacity s.params i) := by
  cases i with
  | encSi sec c ds => exact exec_encInstr_completes_or_refuses sec (.insert c) ds s
  | encTs sec c ds => exact exec_encInstr_completes_or_refuses sec (.time c) ds s
  | genOut cue => exact .inl ⟨_, exec_genOut cue s⟩
  | genIn cue => exact .inl ⟨_, exec_genIn cue s⟩
  | genCrash cue => exact .inl ⟨_, exec_genCrash cue s⟩
  | seqNext => exact .inl ⟨_, exec_seqNext s⟩
  | seqReset seed => exact .inl ⟨_, exec_seqReset seed s⟩

/-- 60_exceptions.md R151, R168: so does every step, and the operation refused is the one presented. -/
theorem step_completes_or_refuses (s : State) :
    (∃ t, step s = .next t) ∨ (step s = .refused .sectionExceedsBuffer ∧
      ∃ c now rest i, s.events = .command c now :: rest ∧ decode c = .ok i ∧ ExceedsCapacity s.params i) := by
  rcases step_cases s with ⟨_, he⟩ | ⟨_, _, he⟩ | ⟨c, now, rest, i, hev, hdec, he⟩ | ⟨_, _, _, _, _, _, he⟩
  · exact .inl ⟨_, he⟩
  · exact .inl ⟨_, he⟩
  · rw [he]
    exact (exec_completes_or_refuses i _).imp_right fun ⟨href, hcap⟩ => ⟨href, c, now, rest, i, hev, hdec, hcap⟩
  · exact .inl ⟨_, he⟩

/-- Settles O54: idle, a reset and an error answer a next state, so does every operation whose section fits. -/
theorem onlyCapacityStopsAStep : Obligations.OnlyCapacityStopsAStep := by
  intro s
  rcases step_completes_or_refuses s with ⟨t, he⟩ | ⟨he, c, now, rest, _, hev, hdec, sec, cmd, ds, d, rfl, hd, hlen⟩ <;> rw [he]
  · exact ⟨nofun, nofun⟩
  · refine ⟨nofun, fun r hr => ?_⟩
    cases hr
    exact ⟨rfl, c, now, rest, sec, cmd, ds, d, hev, hdec, hd, hlen⟩

end Sys2Proof.Machine
end

section
/-! Resets, idle steps, and what a run leaves behind (70_reset_and_hazards.md R171 to R173, R181). -/

namespace Sys2Proof.Machine

/-- Settles O7: the branch of `step` for no event. -/
theorem idleStepKeepsState : Obligations.IdleStepKeepsState := fun _ => step_nil

/-! ## A reset among the events -/

/-- 43_event_id_sequence.md R145: what one step adds to the ids a run draws. -/
theorem drawnIds_succ_next {s t : State} (h : step s = .next t) (k : Nat) :
    drawnIds (k + 1) s = (if s.drawsNext then t.rsp.evid.toList else []) ++ drawnIds k t := by
  simp [drawnIds, h]

theorem State.drawsNext_cons {s : State} {e : Event} {rest : List Event} (h : s.events = e :: rest) : s.drawsNext = e.draws := by
  simp [State.drawsNext, h]

/-- 70_reset_and_hazards.md R172, log 7: a reset keeps the straps and the input side, and nothing else. -/
theorem State.powerUp_eq_resetWith (s : State) :
    s.powerUp = { State.resetWith s.params with events := s.events, nowS := s.nowS } := rfl

/-- Settles O6: the reset itself draws no id, and the state it leaves is the fresh one. -/
theorem resetEventReseeds : Obligations.ResetEventReseeds := by
  intro s rest hev
  refine ⟨step_reset hev, fun k => ?_⟩
  have hdraws : s.drawsNext = false := State.drawsNext_cons hev
  rw [drawnIds_succ_next (step_reset hev), hdraws, if_neg Bool.false_ne_true, List.nil_append, State.powerUp_eq_resetWith]

/-! ## Runs, split at their first step -/

theorem run_succ_refused {s : State} {r : Refusal} (h : step s = .refused r) (k : Nat) : run (k + 1) s = .refused r := by
  simp [run, Host.Core.run, Sys2Proof.core, h]

/-- 60_exceptions.md R168: a run completes or meets a refusal; it never faults. -/
theorem run_completes_or_refuses (k : Nat) (s : State) : (∃ t, RunsTo k s t) ∨ ∃ r, run k s = .refused r := by
  induction k generalizing s with
  | zero => exact .inl ⟨s, rfl⟩
  | succ k ih =>
    rcases step_completes_or_refuses s with ⟨u, hstep⟩ | ⟨hstep, -⟩
    · simpa only [RunsTo, run_succ_next hstep] using ih u
    · exact .inr ⟨_, run_succ_refused hstep k⟩

/-- 60_exceptions.md R168: a run that meets no refusal meets none at its first step. -/
theorem RunsTo.exists_step {k : Nat} {s t : State} (h : RunsTo (k + 1) s t) : ∃ u, step s = .next u ∧ RunsTo k u t := by
  rcases step_completes_or_refuses s with ⟨u, hstep⟩ | ⟨hstep, -⟩
  · exact ⟨u, hstep, by rwa [RunsTo, run_succ_next hstep] at h⟩
  · rw [RunsTo, run_succ_refused hstep] at h
    cases h

theorem State.takesCommand_cons {s : State} {e : Event} {rest : List Event} (h : s.events = e :: rest) :
    s.takesCommand = e.isCommand := by
  simp [State.takesCommand, h]

theorem events_of_step_cons {s u : State} {e : Event} {rest : List Event} (hev : s.events = e :: rest) (h : step s = .next u) :
    u.events = rest := by
  rw [(noStepChangesTheStraps s u h).2, hev, List.tail_cons]

/-- Every step takes one event, while there is one. -/
theorem RunsTo.events_eq {k : Nat} {s t : State} (h : RunsTo k s t) : t.events = s.events.drop k := by
  induction k generalizing s with
  | zero => cases h; rfl
  | succ k ih =>
    obtain ⟨u, hstep, hrun⟩ := h.exists_step
    rw [ih hrun, (noStepChangesTheStraps s u hstep).2, List.drop_tail]

/-- A run goes on from where its first part ends ... -/
theorem RunsTo.run_add {k : Nat} {s t : State} (h : RunsTo k s t) (n : Nat) : run (k + n) s = run n t := by
  induction k generalizing s with
  | zero => cases h; rw [Nat.zero_add]
  | succ k ih =>
    obtain ⟨u, hstep, hrun⟩ := h.exists_step
    rw [Nat.succ_add, run_succ_next hstep, ih hrun]

/-- ... and its later responses follow the earlier ones. -/
theorem RunsTo.responses_add {k : Nat} {s t : State} (h : RunsTo k s t) (n : Nat) :
    responses (k + n) s = responses k s ++ responses n t := by
  induction k generalizing s with
  | zero => cases h; rw [Nat.zero_add, responses_zero, List.nil_append]
  | succ k ih =>
    obtain ⟨u, hstep, hrun⟩ := h.exists_step
    rw [Nat.succ_add, responses_succ_next hstep, responses_succ_next hstep, ih hrun, List.append_assoc]

/-! ## The responses of a run -/

/-- 70_reset_and_hazards.md R181: one response for each command taken, none for a reset or an idle step. -/
theorem RunsTo.responses_length {k : Nat} {s t : State} (h : RunsTo k s t) :
    (responses k s).length = ((s.events.take k).filter Event.isCommand).length := by
  induction k generalizing s with
  | zero => rfl
  | succ k ih =>
    obtain ⟨u, hstep, hrun⟩ := h.exists_step
    cases hev : s.events with
    | nil => rw [responses_idle hev]; rfl
    | cons e rest =>
      have hrest := ih hrun
      rw [events_of_step_cons hev hstep] at hrest
      rw [responses_succ_next hstep, State.takesCommand_cons hev, List.take_succ_cons, List.length_append, hrest]
      cases he : e.isCommand <;> simp [he, Nat.add_comm]

/-- 70_reset_and_hazards.md R181: with commands only, the latch holds the last response, if there is one. -/
theorem RunsTo.rsp_eq {k : Nat} {s t : State} (h : RunsTo k s t) (hall : ∀ e ∈ s.events.take k, e.isCommand = true) :
    t.rsp = (responses k s).getLast?.getD s.rsp := by
  induction k generalizing s with
  | zero => cases h; rfl
  | succ k ih =>
    cases hev : s.events with
    | nil =>
      rw [RunsTo, run_idle hev] at h
      cases h
      rw [responses_idle hev]
      rfl
    | cons e rest =>
      obtain ⟨u, hstep, hrun⟩ := h.exists_step
      rw [hev, List.take_succ_cons, List.forall_mem_cons] at hall
      obtain ⟨he, hrest⟩ := hall
      rw [ih hrun (by rwa [events_of_step_cons hev hstep]), responses_succ_next hstep, State.takesCommand_cons hev, he,
        if_pos rfl, List.singleton_append, List.getLast?_cons, Option.getD_some]

/-- 70_reset_and_hazards.md R181, log 6: once every event is taken, further steps add nothing. -/
theorem RunsTo.idle_add {k : Nat} {s t : State} (h : RunsTo k s t) (hk : s.events.length ≤ k) (n : Nat) :
    RunsTo (k + n) s t ∧ responses (k + n) s = responses k s := by
  have hidle : t.events = [] := by rw [h.events_eq, List.drop_eq_nil_of_le hk]
  exact ⟨by rw [RunsTo, h.run_add, run_idle hidle], by rw [h.responses_add, responses_idle hidle, List.append_nil]⟩

/-! ## Runs of commands -/

/-- A state that presents these commands already. -/
theorem State.present_eq_self {cs : List (Command × U32)} {s : State} (h : s.events = cs.map fun c => .command c.1 c.2) :
    s.present cs = s := by
  rw [State.present, ← h]

theorem isCommand_of_mem_present {cs : List (Command × U32)} {s : State} {e : Event} (h : e ∈ (s.present cs).events) :
    e.isCommand = true := by
  obtain ⟨c, -, rfl⟩ := List.mem_map.1 h
  rfl

section runCommands
variable {cs : List (Command × U32)} {s : State}

theorem runCommands_of_runsTo {t : State} (h : RunsTo cs.length (s.present cs) t) : runCommands cs s =
    some ⟨t.seq, (responses cs.length (s.present cs)).getLast?, responses cs.length (s.present cs)⟩ := by
  rw [RunsTo] at h
  simp only [runCommands, h]

/-- 60_exceptions.md R168: a run that meets a refusal leaves nothing. -/
theorem runCommands_of_refused {r : Refusal} (h : run cs.length (s.present cs) = .refused r) : runCommands cs s = none := by
  simp only [runCommands, h]

/-- 70_reset_and_hazards.md R181: each command of a run has its response. -/
theorem responses_present_length {t : State} (h : RunsTo cs.length (s.present cs) t) :
    (responses cs.length (s.present cs)).length = cs.length := by
  have hlen : (s.present cs).events.length = cs.length := List.length_map ..
  rw [h.responses_length, List.take_of_length_le hlen.le, List.filter_eq_self.2 fun _ he => isCommand_of_mem_present he, hlen]

/-- 70_reset_and_hazards.md R181: a run of at least one command leaves a last response, the one the latch holds. -/
theorem responses_present_getLast? {t : State} (h : RunsTo cs.length (s.present cs) t) (hcs : cs ≠ []) :
    (responses cs.length (s.present cs)).getLast? = some t.rsp := by
  have hne : responses cs.length (s.present cs) ≠ [] := by
    rwa [← List.length_pos_iff, responses_present_length h, List.length_pos_iff]
  rw [h.rsp_eq fun _ he => isCommand_of_mem_present (List.mem_of_mem_take he), List.getLast?_eq_some_getLast hne,
    Option.getD_some]

/-- 70_reset_and_hazards.md R181: a run is its first command's step and then the run of the others. -/
theorem runCommands_cons_of_next {c : Command} {now : U32} {t : State} (h : step (s.present ((c, now) :: cs)) = .next t) :
    runCommands ((c, now) :: cs) s =
      (runCommands cs t).map fun l => ⟨l.seq, some (l.last.getD t.rsp), t.rsp :: l.responses⟩ := by
  have hself : t.present cs = t := State.present_eq_self (events_of_step_cons rfl h)
  have hrun : run ((c, now) :: cs).length (s.present ((c, now) :: cs)) = run cs.length t := run_succ_next h _
  rcases run_completes_or_refuses cs.length t with ⟨u, hu⟩ | ⟨r, hr⟩
  · have hresp : responses ((c, now) :: cs).length (s.present ((c, now) :: cs)) = t.rsp :: responses cs.length t :=
      responses_succ_next h _
    rw [runCommands_of_runsTo (hrun.trans hu), hresp, List.getLast?_cons, runCommands_of_runsTo (by rwa [hself]), hself,
      Option.map_some]
  · rw [runCommands_of_refused (hrun.trans hr), runCommands_of_refused (by rwa [hself]), Option.map_none]

end runCommands

/-- Settles O48: the responses of any run, then those of a run of commands, then its split at the first command. -/
theorem runLeavesSeqAndResponses : Obligations.RunLeavesSeqAndResponses := by
  refine ⟨fun k s t h => ⟨h.responses_length, h.rsp_eq, h.idle_add⟩, fun cs s t h => ?_,
    fun c now cs s => ⟨fun t h => ?_, fun r h => ?_⟩⟩
  · exact ⟨_, runCommands_of_runsTo h, rfl, responses_present_length h, rfl, responses_present_getLast? h⟩
  · exact runCommands_cons_of_next h
  · exact runCommands_of_refused (run_succ_refused h _)

end Sys2Proof.Machine
end

section
/-! The sequencer: its two operations, and the ids a run draws (43_event_id_sequence.md). -/

namespace Sys2Proof.Machine

/- One proof after another: proofs in parallel take the whole text over the check's memory limit. -/
set_option Elab.async false

/-! ## SEQ.NEXT and SEQ.RESET -/

/-- 43_event_id_sequence.md R143: the increment, as a number. -/
theorem add_one_eq_ofNat (v : U32) : v + 1 = BitVec.ofNat 32 ((v.toNat + 1) % 2 ^ 32) := by
  simp [← BitVec.toNat_inj]

/-- Settles O8: the opcode carries no operand, and the increment is the one modulo 2^32. -/
theorem seqNextReturnsThenIncrements : Obligations.SeqNextReturnsThenIncrements := by
  refine ⟨fun _ => decode_of_present (i := .seqNext) trivial, fun s => ?_, fun s t hs h => ?_⟩
  · rw [exec_seqNext, add_one_eq_ofNat]
    rfl
  · cases (exec_seqNext s).symm.trans h
    simp [hs]

/-- Settles O10: the seed is the operand, and each SEQ.NEXT after it answers the counter the one before it left. -/
theorem seqResetOverwritesCounter : Obligations.SeqResetOverwritesCounter := by
  refine ⟨fun _ => decode_of_present (i := .seqReset _) rfl, exec_seqReset, fun s s1 s2 s3 s4 h1 h2 h3 h4 => ?_⟩
  cases (exec_seqReset 5 s).symm.trans h1
  cases (exec_seqNext _).symm.trans h2
  cases (exec_seqNext _).symm.trans h3
  cases (exec_seqNext _).symm.trans h4
  exact ⟨rfl, rfl, rfl, rfl⟩

/-- Settles O49: both write `SEQ` and the response alone. -/
theorem sequencerOperationsFrame : Obligations.SequencerOperationsFrame := by
  rintro i s t (rfl | ⟨seed, rfl⟩) h
  · cases (exec_seqNext s).symm.trans h
    exact ⟨rfl, rfl, rfl, rfl, fun _ => rfl, rfl, rfl, rfl, rfl, rfl⟩
  · cases (exec_seqReset seed s).symm.trans h
    exact ⟨rfl, rfl, rfl, rfl, fun _ => rfl, rfl, rfl, rfl, rfl, rfl⟩

/-! ## An operation that draws an id -/

@[simp] theorem drawsId_encInstr (sec : SectionFields) (cmd : SpliceCommand) (ds : List Descriptor) :
    drawsId (encInstr sec cmd ds) = false := by
  cases cmd <;> rfl

/-- 42_cue_generator.md R122: a GEN operation draws exactly when no id is supplied. -/
theorem IsCue.drawsId_eq {cue : CueCommand} {i : Instr} {op : Byte} (h : IsCue cue i op) : drawsId i = !cue.eventIdValid := by
  cases h <;> rfl

theorem exists_next_of_drawsId {i : Instr} (hdraws : drawsId i = true) (s : State) : ∃ t, exec i s = .next t := by
  rcases exec_completes_or_refuses i s with hnext | ⟨_, sec, cmd, ds, _, rfl, _⟩
  · exact hnext
  · simp at hdraws

section Completion
variable {i : Instr} {s t : State}

/-- 43_event_id_sequence.md R141, 42_cue_generator.md R122, R129: the id drawn is the one reported. -/
theorem Completion.evid_of_drawsId (h : Completion s i t) (hdraws : drawsId i = true) : t.rsp.evid = some s.seq := by
  cases h with
  | malformed | encoded => simp at hdraws
  | @generated cue _ _ gen c =>
    have hid : cue.eventIdValid = false := by simpa [gen.drawsId_eq] using hdraws
    simp [cueId, hid]
  | drawn => rfl
  | reseeded => cases hdraws

/-- 10_state.md R20: without a new seed, `SEQ` moves by one when an id is drawn, and not otherwise. -/
theorem Completion.seq_eq (h : Completion s i t) (hseed : ∀ seed, i ≠ .seqReset seed) :
    t.seq = if drawsId i then s.seq + 1 else s.seq := by
  cases h with
  | malformed | encoded => simp
  | @generated cue _ _ gen c =>
    rw [gen.drawsId_eq, respondCue_seq, cueSeq]
    cases cue.eventIdValid <;> rfl
  | drawn => rfl
  | reseeded seed => exact absurd rfl (hseed seed)

end Completion

/-- Settles O9: a drawing operation completes, reports `SEQ` and increments it. -/
theorem counterWrapsToZero : Obligations.CounterWrapsToZero := by
  intro i s hdraws hseq
  obtain ⟨t, ht⟩ := exists_next_of_drawsId hdraws s
  have hdone := completion_of_exec ht
  have hseed : ∀ seed, i ≠ .seqReset seed := by
    rintro seed rfl
    cases hdraws
  refine ⟨t, ht, by rw [hdone.evid_of_drawsId hdraws, hseq], ?_⟩
  rw [hdone.seq_eq hseed, if_pos hdraws, hseq]
  rfl

/-! ## A step that draws an id -/

theorem Event.draws_command {c : Command} {i : Instr} (h : decode c = .ok i) (now : U32) :
    (Event.command c now).draws = drawsId i := by
  simp only [Event.draws, h]

theorem Event.draws_unlisted {c : Command} {r : DecodeReject} (h : decode c = .error r) (now : U32) :
    (Event.command c now).draws = false := by
  simp only [Event.draws, h]

theorem ne_seqReset_of_reseeds {c : Command} {i : Instr} {now : U32} (hdec : decode c = .ok i)
    (h : (Event.command c now).reseeds = false) (seed : U32) : i ≠ .seqReset seed := by
  rintro rfl
  simp [Event.reseeds, hdec] at h

section step
variable {s t : State} (h : step s = .next t)
include h

/-- 43_event_id_sequence.md R141, R145: a step that draws an id reports the `SEQ` it found. -/
theorem evid_of_drawsNext (hdraws : s.drawsNext = true) : t.rsp.evid = some s.seq := by
  rcases step_cases s with ⟨hev, _⟩ | ⟨_, hev, _⟩ | ⟨c, now, rest, i, hev, hdec, he⟩ | ⟨_, _, _, _, hev, hdec, _⟩
  · simp [State.drawsNext, hev] at hdraws
  · rw [State.drawsNext_cons hev] at hdraws
    cases hdraws
  · rw [State.drawsNext_cons hev, Event.draws_command hdec] at hdraws
    exact (completion_of_exec (he.symm.trans h)).evid_of_drawsId hdraws
  · rw [State.drawsNext_cons hev, Event.draws_unlisted hdec] at hdraws
    cases hdraws

/-- 43_event_id_sequence.md R145: a step that takes no reseeding event moves `SEQ` by one for an id drawn, and not otherwise. -/
theorem seq_of_step (hseed : ∀ e ∈ s.events.head?, e.reseeds = false) :
    t.seq = if s.drawsNext then s.seq + 1 else s.seq := by
  rcases step_cases s with ⟨hev, he⟩ | ⟨_, hev, _⟩ | ⟨c, now, rest, i, hev, hdec, he⟩ | ⟨_, _, _, _, hev, hdec, he⟩
  · cases he.symm.trans h
    simp [State.drawsNext, hev]
  · simp [hev, Event.reseeds] at hseed
  · have hi := ne_seqReset_of_reseeds hdec (hseed _ (by rw [hev]; rfl))
    rw [State.drawsNext_cons hev, Event.draws_command hdec]
    exact (completion_of_exec (he.symm.trans h)).seq_eq hi
  · cases he.symm.trans h
    simp [State.drawsNext_cons hev, Event.draws_unlisted hdec]

/-- 43_event_id_sequence.md R145: what a step adds to the ids drawn is the `SEQ` it found. -/
theorem drawnIds_succ_of_step (k : Nat) :
    drawnIds (k + 1) s = (if s.drawsNext then [s.seq] else []) ++ drawnIds k t := by
  rw [drawnIds_succ_next h]
  split
  case isTrue hdraws => rw [evid_of_drawsNext h hdraws, Option.toList_some]
  case isFalse => rfl

end step

/-- 60_exceptions.md R168: no id is drawn from a refused command on. -/
theorem drawnIds_succ_refused {s : State} {r : Refusal} (h : step s = .refused r) (k : Nat) : drawnIds (k + 1) s = [] := by
  simp only [drawnIds, h]

/-! ## The ids of a run -/

/-- No reseeding event is among the first `k` events of `s` (43_event_id_sequence.md R145). -/
def State.NoReseed (k : Nat) (s : State) : Prop := ∀ e ∈ s.events.take k, e.reseeds = false

theorem State.NoReseed.head {k : Nat} {s : State} (h : s.NoReseed (k + 1)) : ∀ e ∈ s.events.head?, e.reseeds = false :=
  fun e he => h e (List.mem_of_mem_head? (by simpa [List.head?_take] using he))

theorem State.NoReseed.of_step {k : Nat} {s t : State} (h : s.NoReseed (k + 1)) (hstep : step s = .next t) : t.NoReseed k := by
  intro e he
  rw [(noStepChangesTheStraps s t hstep).2, ← List.drop_one, List.take_drop, Nat.add_comm] at he
  exact h e (List.mem_of_mem_drop he)

/-- 43_event_id_sequence.md R145: the `n` ids `v`, `v + 1`, ..., modulo 2^32. -/
def idsFrom (v : U32) (n : Nat) : List U32 := (List.range n).map fun j => v + BitVec.ofNat 32 j

theorem idsFrom_succ (v : U32) (n : Nat) : idsFrom v (n + 1) = v :: idsFrom (v + 1) n := by
  have hnext (j : Nat) : v + BitVec.ofNat 32 (j + 1) = v + 1 + BitVec.ofNat 32 j := by
    rw [Nat.add_comm, BitVec.ofNat_add, ← BitVec.add_assoc]
    rfl
  rw [idsFrom, List.range_succ_eq_map, List.map_cons, List.map_map, BitVec.add_zero]
  exact congrArg _ (List.map_congr_left fun j _ => hnext j)

/-- 43_event_id_sequence.md R143: 2^32 increments pass before a value comes again. -/
theorem idsFrom_nodup (v : U32) {n : Nat} (hn : n ≤ 2 ^ 32) : (idsFrom v n).Nodup := by
  refine List.nodup_range.map_on fun i hi j hj heq => ?_
  have hlt {m : Nat} (hm : m ∈ List.range n) : m < 2 ^ 32 := (List.mem_range.1 hm).trans_le hn
  have hval := congrArg BitVec.toNat ((BitVec.add_right_inj v).1 heq)
  rwa [BitVec.toNat_ofNat, BitVec.toNat_ofNat, Nat.mod_eq_of_lt (hlt hi), Nat.mod_eq_of_lt (hlt hj)] at hval

/-- 43_event_id_sequence.md R145: each draw continues where the one before it left `SEQ`. -/
theorem drawnIds_eq_idsFrom {k : Nat} {s : State} (h : s.NoReseed k) : drawnIds k s = idsFrom s.seq (drawnIds k s).length := by
  induction k generalizing s with
  | zero => rfl
  | succ k ih =>
    rcases step_completes_or_refuses s with ⟨t, hstep⟩ | ⟨hstep, _⟩
    · have hrest := ih (h.of_step hstep)
      have hseq := seq_of_step hstep h.head
      rw [drawnIds_succ_of_step hstep]
      rw [hseq] at hrest
      split
      case isTrue hdraws =>
        rw [if_pos hdraws] at hrest
        rw [List.singleton_append, List.length_cons, idsFrom_succ, ← hrest]
      case isFalse hdraws => rwa [if_neg hdraws] at hrest
    · rw [drawnIds_succ_refused hstep]
      rfl

section RunsTo
variable {k : Nat} {s t : State}

/-- 43_event_id_sequence.md R145: a run that meets no refusal draws one id for every drawing command. -/
theorem RunsTo.drawnIds_length (h : RunsTo k s t) : (drawnIds k s).length = ((s.events.take k).filter Event.draws).length := by
  induction k generalizing s with
  | zero => rfl
  | succ k ih =>
    obtain ⟨u, hstep, hrun⟩ := h.exists_step
    have hrest := ih hrun
    rw [(noStepChangesTheStraps s u hstep).2] at hrest
    rw [drawnIds_succ_of_step hstep, List.length_append, hrest]
    cases hev : s.events with
    | nil => simp [State.drawsNext, hev]
    | cons e rest =>
      rw [State.drawsNext_cons hev, List.tail_cons, List.take_succ_cons, List.filter_cons]
      cases e.draws <;> simp [Nat.add_comm]

/-- 43_event_id_sequence.md R145: ... and moves `SEQ` by their number. -/
theorem RunsTo.seq_eq (h : RunsTo k s t) (hseed : s.NoReseed k) : t.seq = s.seq + BitVec.ofNat 32 (drawnIds k s).length := by
  induction k generalizing s with
  | zero => cases h; simp [drawnIds]
  | succ k ih =>
    obtain ⟨u, hstep, hrun⟩ := h.exists_step
    rw [ih hrun (hseed.of_step hstep), seq_of_step hstep hseed.head, drawnIds_succ_of_step hstep, List.length_append,
      BitVec.ofNat_add, ← BitVec.add_assoc]
    cases s.drawsNext <;> simp

end RunsTo

/-- Settles O11: by induction over the run. -/
theorem sequencerMonotonicity : Obligations.SequencerMonotonicity :=
  fun _ _ hseed => ⟨drawnIds_eq_idsFrom hseed, fun _ hrun => ⟨hrun.drawnIds_length, hrun.seq_eq hseed⟩⟩

/-- Settles O12: the ids are consecutive, and at most 2^32 consecutive values are pairwise different. -/
theorem drawnIdsNeverRepeat : Obligations.DrawnIdsNeverRepeat := by
  intro k s hseed hlen
  rw [drawnIds_eq_idsFrom hseed]
  exact idsFrom_nodup s.seq hlen

end Sys2Proof.Machine
end

section
/-! The dispatcher's three operations (42_cue_generator.md). -/

namespace Sys2Proof.Machine

/- One proof after another: proofs in parallel take the whole text over the check's memory limit. -/
set_option Elab.async false

/-! ## Seconds and ticks -/

/-- 42_cue_generator.md R125. -/
theorem ticks_toNat (sec : U32) : (ticks sec).toNat = sec.toNat * 90000 % 2 ^ 33 := BitVec.toNat_ofNat ..

/-- Settles O17: 90000 is 2^4 times 5625, so the product modulo 2^33 sees the seconds modulo 2^29 alone. -/
theorem ticksReduceTheExactProduct : Obligations.TicksReduceTheExactProduct := by
  refine ⟨ticks_toNat, fun a b hab => ?_, rfl⟩
  have hscaled : a.toNat * 2 ^ 4 ≡ b.toNat * 2 ^ 4 [MOD 2 ^ 29 * 2 ^ 4] := Nat.ModEq.mul_right' _ hab
  have hproduct : a.toNat * 90000 % 2 ^ 33 = b.toNat * 90000 % 2 ^ 33 := by
    simpa [Nat.ModEq, mul_assoc] using hscaled.mul_right 5625
  rw [← BitVec.toNat_inj, ticks_toNat, ticks_toNat, hproduct]

/-- 42_cue_generator.md R126. -/
theorem adSeconds_toNat (cue : CueCommand) :
    (adSeconds cue).toNat = if cue.adDurationValid then cue.adDuration.toNat else 600 :=
  apply_ite BitVec.toNat ..

/-! ## The section of a cue -/

/-- 30_encoding.md R57, R61: a length of one byte under the reserved bits. -/
theorem beBytes_reservedLength {n : Nat} (h : n < 2 ^ 8) : beBytes 2 (reservedLength n) = [0xF0, BitVec.ofNat 8 n] := by
  have hhigh : (61440 + n) / 2 ^ 8 = 240 := by omega
  have hlow : (61440 + n) % 256 = n % 256 := by omega
  rw [reservedLength_eq, Nat.mod_eq_of_lt (by omega), beBytes_two, Nat.shiftRight_eq_div_pow, hhigh]
  simp [← BitVec.toNat_inj, hlow]

/-- 42_cue_generator.md R123: the header of every GEN section. -/
theorem headerImage_fixedHeader (p : Params) {sl cl : Nat} (hsl : sl < 2 ^ 8) (hcl : cl < 2 ^ 8) :
    headerImage p fixedHeader sl cl 0 = cueHeader (BitVec.ofNat 8 sl) (BitVec.ofNat 8 cl) := by
  have hencryption : encryptionByte p fixedHeader = 0 := eq_ofNat_of_toNat <| by
    rw [encryptionByte_toNat]
    simp [fixedHeader, overflowBit]
  rw [headerImage, beBytes_reservedLength hsl, beBytes_reservedLength hcl, hencryption]
  rfl

/-- 42_cue_generator.md R121: the section with the fixed header, no descriptor and a body of `n` bytes. -/
theorem sectionImage_fixedHeader {cmd : SpliceCommand} {n : Nat} (hlen : bodyLength cmd = n) (p : Params) :
    sectionImage p fixedHeader cmd [] =
      withTrailer (cueHeader (BitVec.ofNat 8 (19 + n)) (BitVec.ofNat 8 n) ++ bodyImage p cmd) := by
  have hn : 22 + n ≤ 43 := by
    simpa [hlen, descLength] using sectionImage_nil_length_le p fixedHeader cmd
  have hcovered : coveredImage p fixedHeader cmd [] =
      cueHeader (BitVec.ofNat 8 (19 + n)) (BitVec.ofNat 8 n) ++ bodyImage p cmd := by
    rw [← headerImage_fixedHeader p (by omega) (by omega), coveredImage, bodyImage_length, hlen]
    exact List.append_nil _
  rw [sectionImage, hcovered, withTrailer]

section body
variable (p : Params) (id now : U32)

/-- 42_cue_generator.md R126: the body of a GEN.OUT section. -/
theorem bodyImage_cueOutCommand (ad : U32) : bodyImage p (.insert (cueOutCommand id now ad)) =
    beBytes 4 id.toNat ++ [0x00, 0xE0] ++ specifiedTime p (ticks now).toNat ++
      [BitVec.ofNat 8 (0x80 + overflowBit p (ticks ad))] ++ beBytes 4 ((ticks ad).toNat % 2 ^ 32) ++ [0x00, 0x01, 0x00, 0x00] := by
  rw [bodyImage, spliceInsertImage_of_not_cancelled rfl, spliceTimeImage_eq, breakDurationImage_eq]
  simp [cueOutCommand, commonCommand, spliceTimePresent, insertFlagsByte, boolByte, beBytes_two]

/-- 42_cue_generator.md R127: the body of a GEN.IN section. -/
theorem bodyImage_cueInCommand : bodyImage p (.insert (cueInCommand id now)) =
    beBytes 4 id.toNat ++ [0x00, 0x40] ++ specifiedTime p (ticks now).toNat ++ [0x00, 0x01, 0x00, 0x00] := by
  rw [bodyImage, spliceInsertImage_of_not_cancelled rfl, spliceTimeImage_eq]
  simp [cueInCommand, commonCommand, spliceTimePresent, insertFlagsByte, boolByte, beBytes_two]

/-- 42_cue_generator.md R128: the body of a GEN.CRASH section. -/
theorem bodyImage_crashOutCommand : bodyImage p (.insert (crashOutCommand id)) =
    beBytes 4 id.toNat ++ [0x00, 0x50, 0x00, 0x01, 0x00, 0x00] := by
  rw [bodyImage, spliceInsertImage_of_not_cancelled rfl]
  simp [crashOutCommand, commonCommand, spliceTimePresent, insertFlagsByte, boolByte, beBytes_two]

end body

/-! ## What the three operations share -/

/-- 42_cue_generator.md R121, R122, R129: `i` is completed in `s` by resolving the id and answering the section of `c`. -/
def RespondsCue (i : Instr) (op : Byte) (cue : CueCommand) (c : SpliceInsert) (s : State) : Prop :=
  exec i s = .next (respondCue op cue (cueId cue s) c { s with seq := cueSeq cue s })

theorem respondsCue_genOut (cue : CueCommand) (s : State) :
    RespondsCue (.genOut cue) opGenOut cue (cueOutCommand (cueId cue s) s.nowS (adSeconds cue)) s := exec_genOut cue s

theorem respondsCue_genIn (cue : CueCommand) (s : State) :
    RespondsCue (.genIn cue) opGenIn cue (cueInCommand (cueId cue s) s.nowS) s := exec_genIn cue s

theorem respondsCue_genCrash (cue : CueCommand) (s : State) :
    RespondsCue (.genCrash cue) opGenCrash cue (crashOutCommand (cueId cue s)) s := exec_genCrash cue s

section RespondsCue
variable {i : Instr} {op : Byte} {cue : CueCommand} {c : SpliceInsert} {s t : State} (h : RespondsCue i op cue c s)
include h

/-- 42_cue_generator.md R126 to R129: the next state whole, for a body of `n` bytes. -/
theorem RespondsCue.exec_eq {n : Nat} (hlen : bodyLengthSI c = n) :
    exec i s = .next { s with
      seq := cueSeq cue s
      rsp := ⟨0, 22 + n,
        some (withTrailer (cueHeader (BitVec.ofNat 8 (19 + n)) (BitVec.ofNat 8 n) ++ bodyImage s.params (.insert c))),
        some (cueId cue s), some s.nowS, some ⟨op, cue⟩⟩
      buf := ⟨[], 0⟩ } := by
  have hbytes : (sectionImage s.params fixedHeader (.insert c) []).length = 22 + n := by
    rw [sectionImage_length, bodyLength, hlen, descLength, Nat.add_zero]
  rw [RespondsCue] at h
  rw [h, respondCue, encodeSection_eq_ofBytes, Buffer.ofBytes_wp, Buffer.ofBytes_contents, hbytes,
    sectionImage_fixedHeader (cmd := .insert c) hlen]
  rfl

theorem RespondsCue.eq_of_exec (ht : exec i s = .next t) :
    t = respondCue op cue (cueId cue s) c { s with seq := cueSeq cue s } :=
  (Host.Outcome.next.inj (Eq.trans (Eq.symm h) ht)).symm

/-- 42_cue_generator.md R129: the bytes it answers. -/
theorem RespondsCue.obuf_eq (ht : exec i s = .next t) :
    t.rsp.obuf = some (sectionImage s.params fixedHeader (.insert c) []) := by
  rw [h.eq_of_exec ht, respondCue_rsp]

theorem RespondsCue.outputs_iff (b : List Byte) :
    Outputs i s b ↔ b = sectionImage s.params fixedHeader (.insert c) [] := by
  constructor
  · rintro ⟨t, ht, hobuf⟩
    rw [h.obuf_eq ht] at hobuf
    exact (Option.some_inj.1 hobuf).symm
  · rintro rfl
    exact ⟨_, h, h.obuf_eq h⟩

end RespondsCue

/-! ## The next state of each operation -/

/-- Settles O14: the body of the cue-out command, its 21 bytes behind the fixed header. -/
theorem genOutSection : Obligations.GenOutSection := by
  refine ⟨fun _ => decode_of_present (i := .genOut _) rfl, fun cue s => ?_⟩
  rw [(respondsCue_genOut cue s).exec_eq (n := 21) rfl, bodyImage_cueOutCommand, overflowBit, ticks_toNat, ticks_toNat,
    adSeconds_toNat]
  simp only [List.append_assoc]
  rfl

/-- Settles O15: the body of the cue-in command, its 16 bytes behind the fixed header. -/
theorem genInSection : Obligations.GenInSection := by
  refine ⟨fun _ => decode_of_present (i := .genIn _) rfl, fun cue s => ?_⟩
  rw [(respondsCue_genIn cue s).exec_eq (n := 16) rfl, bodyImage_cueInCommand, ticks_toNat]
  simp only [List.append_assoc]
  rfl

/-- Settles O16: the body of the crash-out command, its 10 bytes behind the fixed header. -/
theorem genCrashSection : Obligations.GenCrashSection := by
  refine ⟨fun _ => decode_of_present (i := .genCrash _) rfl, fun cue s => ?_⟩
  rw [(respondsCue_genCrash cue s).exec_eq (n := 10) rfl, bodyImage_crashOutCommand]
  simp only [List.append_assoc]
  rfl

/-- Settles O51: `SEQ`, the response and the working buffer are all a GEN operation writes. -/
theorem dispatcherOperationsFrame : Obligations.DispatcherOperationsFrame := by
  intro cue i s t hi ht
  obtain ⟨op, c, h⟩ : ∃ op c, RespondsCue i op cue c s := by
    rcases hi with rfl | rfl | rfl
    · exact ⟨_, _, respondsCue_genOut cue s⟩
    · exact ⟨_, _, respondsCue_genIn cue s⟩
    · exact ⟨_, _, respondsCue_genCrash cue s⟩
  obtain rfl := h.eq_of_exec ht
  exact ⟨rfl, rfl, rfl, fun hvalid => if_pos hvalid, fun _ => rfl, rfl⟩

/-! ## What reaches the bytes -/

/-- Settles O18: the bytes are the section of a command that reads neither the pre-roll nor, but for GEN.OUT, the duration. -/
theorem unusedCueFieldsDoNotShow : Obligations.UnusedCueFieldsDoNotShow := by
  intro cue pv p av a s t u
  refine ⟨fun ht hu => ⟨?_, ?_⟩, fun ht hu => ?_, fun ht hu => ?_⟩
  · rw [(respondsCue_genOut _ s).obuf_eq ht, (respondsCue_genOut cue s).obuf_eq hu]
    rfl
  · rw [(respondsCue_genOut _ s).eq_of_exec ht]
    rfl
  · rw [(respondsCue_genIn _ s).obuf_eq ht, (respondsCue_genIn cue s).obuf_eq hu]
    rfl
  · rw [(respondsCue_genCrash _ s).obuf_eq ht, (respondsCue_genCrash cue s).obuf_eq hu]
    rfl

/-- Settles O19: the bodies have 16 and 10 bytes, and the crash-out command does not read the clock. -/
theorem crashOmitsTheSpliceTime : Obligations.CrashOmitsTheSpliceTime := by
  intro cue s now bin bcrash hin hcrash
  obtain rfl := ((respondsCue_genIn cue s).outputs_iff bin).1 hin
  obtain rfl := ((respondsCue_genCrash cue s).outputs_iff bcrash).1 hcrash
  refine ⟨by rw [sectionImage_length, sectionImage_length]; rfl, ?_⟩
  exact ((respondsCue_genCrash cue { s with nowS := now }).outputs_iff _).2 rfl

/-! ## The encoder on the same record -/

/-- 40_section_encoder.md R95: what an ENC operation outputs where the section fits. -/
theorem outputs_encInstr_iff {sec : SectionFields} {cmd : SpliceCommand} {ds : List Descriptor} {d : List RawDescriptor}
    {s : State} (hd : decodeDescriptors ds = some d) (hfits : 22 + bodyLength cmd + descLength d ≤ s.params.obufSize)
    (b : List Byte) : Outputs (encInstr sec cmd ds) s b ↔ b = sectionImage s.params sec cmd d := by
  refine ⟨fun h => h.eq_sectionImage_of_decode hd, ?_⟩
  rintro rfl
  exact ⟨_, exec_encInstr_of_fits hd hfits, rfl⟩

/-- 42_cue_generator.md R121: a GEN operation outputs what ENC.SI does on the fixed header and any record with the same body. -/
theorem RespondsCue.outputs_iff_encSi {i : Instr} {op : Byte} {cue : CueCommand} {c c' : SpliceInsert} {s : State}
    (h : RespondsCue i op cue c s) (hcap : 43 ≤ s.params.obufSize)
    (hbody : bodyImage s.params (.insert c) = bodyImage s.params (.insert c')) (b : List Byte) :
    Outputs i s b ↔ Outputs (.encSi fixedHeader c' []) s b := by
  have hfits : 22 + bodyLength (.insert c') + descLength [] ≤ s.params.obufSize :=
    (sectionImage_length s.params fixedHeader (.insert c') []) ▸ (sectionImage_nil_length_le ..).trans hcap
  rw [h.outputs_iff, sectionImage_congr hbody]
  exact (outputs_encInstr_iff (cmd := .insert c') rfl hfits b).symm

/-- 30_encoding.md R66: without the duration flag the wires of the break duration stay out of the body. -/
theorem bodyImage_with_breakDuration {c : SpliceInsert} (h : c.durationFlag = false) (p : Params) (b : BreakDuration) :
    bodyImage p (.insert { c with breakDuration := b }) = bodyImage p (.insert c) := by
  simp [bodyImage, spliceInsertImage, insertFlagsByte, spliceTimePresent, h]

/-- 42_cue_generator.md R125, R126. -/
theorem ticks_adSeconds (cue : CueCommand) :
    ticks (adSeconds cue) = BitVec.ofNat 33 ((if cue.adDurationValid then cue.adDuration.toNat else 600) * 90000) := by
  rw [ticks, adSeconds_toNat]

/-- Settles O20: the records differ from the dispatcher's in the wires of an absent break duration alone. -/
theorem genDelegatesToTheEncoder : Obligations.GenDelegatesToTheEncoder := by
  intro cue s b hcap
  refine ⟨(respondsCue_genOut cue s).outputs_iff_encSi hcap ?_ b, (respondsCue_genIn cue s).outputs_iff_encSi hcap ?_ b,
    (respondsCue_genCrash cue s).outputs_iff_encSi hcap ?_ b⟩
  · rw [cueOutCommand, ticks_adSeconds]
    rfl
  · exact (bodyImage_with_breakDuration (c := cueInCommand _ _) rfl _ _).symm
  · exact (bodyImage_with_breakDuration (c := crashOutCommand _) rfl _ _).symm

end Sys2Proof.Machine
end
